-- ==== Sys2Proof/Word.lean ====
section
/-! DEFINITION. The word types of the block: every value is unsigned and of a fixed width (00_scope.md R5, R7). -/

namespace Sys2Proof

/-- An 8-bit symbol, a byte or a character code (`SYM_W` = 8, R5). A reverse-table entry (`REV_W` = 8) has the same width. -/
abbrev Symbol := BitVec 8

/-- A 6-bit forward-table index (`SEXT_W` = 6, R5). -/
abbrev Sextet := BitVec 6

/-- A 12-bit input beat, format IB12 (`BEAT_IN_W` = 12, 30_encoding.md R82). -/
abbrev Beat := BitVec 12

/-- A 10-bit output beat, format OB10 (`BEAT_OUT_W` = 10, 30_encoding.md R83). -/
abbrev OutBeat := BitVec 10

end Sys2Proof
end

