-- ==== Sys2Proof/Syntax.lean ====
section
/-! DEFINITION. The input beat forms, one constructor per row of spec/opcode_table.json (30_encoding.md R91). -/

namespace Sys2Proof

/-- One accepted input beat. Every field of the 12-bit word that the row does not fix is an operand, the ignored ones
too (R89), so that no bit of a beat is lost between `decode` and `encode`. A form's own operation counts only on an
opening beat: under an open message the form acts as the same shape of the latched operation (R90). -/
inductive Instr where
  /-- `BUBBLE` (R111): `op` and `data` ignored. -/
  | bubble (op : BitVec 2) (u : Symbol)
  /-- `ENC.S d` (R134). -/
  | encS (d : Symbol)
  /-- `ENC.E` (R136): `data` ignored. -/
  | encE (u : Symbol)
  /-- `ENC.SE d` (R137). -/
  | encSE (d : Symbol)
  /-- `DEC.S c` (R158). -/
  | decS (c : Symbol)
  /-- `DEC.E` (R160): `data` ignored. -/
  | decE (u : Symbol)
  /-- `DEC.SE c` (R164). -/
  | decSE (c : Symbol)
  /-- `TRIM.S c` (R183). -/
  | trimS (c : Symbol)
  /-- `TRIM.E` (R185): `data` ignored. -/
  | trimE (u : Symbol)
  /-- `TRIM.SE c` (R187). -/
  | trimSE (c : Symbol)
  /-- `RSV.S` (R113): the symbol counts only under an open message (R90). -/
  | rsvS (d : Symbol)
  /-- `RSV.E` (R113): `data` ignored. -/
  | rsvE (u : Symbol)
  /-- `RSV.SE` (R113): the symbol counts only under an open message (R90). -/
  | rsvSE (d : Symbol)
  deriving DecidableEq, Repr

end Sys2Proof
end

