-- ==== Sys2Proof/WellFormed.lean ====
section
/-! DEFINITION. Which beats are well formed (all of them) and which are written in the canonical form (30_encoding.md R89, R92). -/

namespace Sys2Proof

/-- Every beat form with every operand value is a legal input: "all 4096 patterns are accounted for" (R89, R94). The
widths of the operands are in their types, so nothing is left to refuse. -/
def Instr.wf : Instr → Bool
  | .bubble _ _ => true
  | .encS _ => true
  | .encE _ => true
  | .encSE _ => true
  | .decS _ => true
  | .decE _ => true
  | .decSE _ => true
  | .trimS _ => true
  | .trimE _ => true
  | .trimSE _ => true
  | .rsvS _ => true
  | .rsvE _ => true
  | .rsvSE _ => true

/-- The canonical forms (R89, R92), recommended to a producer and never required (70_reset_and_hazards.md R241 item 4):
ignored fields hold 0, and the reserved operation is not used. For a bubble inside a message R89 names the operation of the
open message as the canonical `op`, and R92 writes `BUBBLE` as 0x000: the check sees one beat without its message and takes
`op` = 0 for every bubble (DESIGN CHOICE, log entry 16: safe, no step reads the check). -/
def Instr.canonical : Instr → Bool
  | .bubble op u => op == 0#2 && u == 0#8
  | .encS _ => true
  | .encE u => u == 0#8
  | .encSE _ => true
  | .decS _ => true
  | .decE u => u == 0#8
  | .decSE _ => true
  | .trimS _ => true
  | .trimE u => u == 0#8
  | .trimSE _ => true
  | .rsvS _ => false
  | .rsvE _ => false
  | .rsvSE _ => false

end Sys2Proof
end

