-- ==== Sys2Proof/Decode.lean ====
section
/-! DEFINITION. Reading an input beat (30_encoding.md R82, R84, R91), writing one, and the opcode table. -/

namespace Sys2Proof

/-- Field `op`, bits 11:10 (R82). -/
def beatOp (w : Beat) : BitVec 2 := w.extractLsb' 10 2

/-- Field `last`, bit 9 (R82). -/
def beatLast (w : Beat) : Bool := w.getLsbD 9

/-- Field `keep`, bit 8 (R82). -/
def beatKeep (w : Beat) : Bool := w.getLsbD 8

/-- Field `data`, bits 7:0 (R82). -/
def beatData (w : Beat) : Symbol := w.extractLsb' 0 8

/-- A bubble has `last = 0` and `keep = 0` (R84 line 1). -/
def beatBubble (w : Beat) : Bool := !beatLast w && !beatKeep w

/-- The form chosen by the `op` field: 0 ENC, 1 DEC, 2 TRIM, 3 reserved (R85). -/
def byOp {α : Type} (op : BitVec 2) (enc dec trim rsv : α) : α :=
  if op = 0#2 then enc else if op = 1#2 then dec else if op = 2#2 then trim else rsv

/-- The row of the opcode table a 12-bit beat falls in, with its operands (R84, R91). Total: all 4096 patterns are
rows. How `BUSY` and `OP` change the reading (R90) is in the meaning, not here. -/
def decode (w : Beat) : Instr :=
  match beatLast w, beatKeep w with
  | false, false => .bubble (beatOp w) (beatData w)
  | false, true => byOp (beatOp w) (.encS (beatData w)) (.decS (beatData w)) (.trimS (beatData w)) (.rsvS (beatData w))
  | true, false => byOp (beatOp w) (.encE (beatData w)) (.decE (beatData w)) (.trimE (beatData w)) (.rsvE (beatData w))
  | true, true => byOp (beatOp w) (.encSE (beatData w)) (.decSE (beatData w)) (.trimSE (beatData w)) (.rsvSE (beatData w))

/-- The `op` field a form is written with (R85, R91). -/
def Instr.opBits : Instr → BitVec 2
  | .bubble op _ => op
  | .encS _ => 0#2
  | .encE _ => 0#2
  | .encSE _ => 0#2
  | .decS _ => 1#2
  | .decE _ => 1#2
  | .decSE _ => 1#2
  | .trimS _ => 2#2
  | .trimE _ => 2#2
  | .trimSE _ => 2#2
  | .rsvS _ => 3#2
  | .rsvE _ => 3#2
  | .rsvSE _ => 3#2

/-- The `last` bit of a form: 1 for the shapes E and SE (R84). -/
def Instr.lastBit : Instr → Bool
  | .bubble _ _ => false
  | .encS _ => false
  | .encE _ => true
  | .encSE _ => true
  | .decS _ => false
  | .decE _ => true
  | .decSE _ => true
  | .trimS _ => false
  | .trimE _ => true
  | .trimSE _ => true
  | .rsvS _ => false
  | .rsvE _ => true
  | .rsvSE _ => true

/-- The `keep` bit of a form: 1 for the shapes S and SE (R84). -/
def Instr.keepBit : Instr → Bool
  | .bubble _ _ => false
  | .encS _ => true
  | .encE _ => false
  | .encSE _ => true
  | .decS _ => true
  | .decE _ => false
  | .decSE _ => true
  | .trimS _ => true
  | .trimE _ => false
  | .trimSE _ => true
  | .rsvS _ => true
  | .rsvE _ => false
  | .rsvSE _ => true

/-- The `data` field of a form. -/
def Instr.dataBits : Instr → Symbol
  | .bubble _ u => u
  | .encS d => d
  | .encE u => u
  | .encSE d => d
  | .decS c => c
  | .decE u => u
  | .decSE c => c
  | .trimS c => c
  | .trimE u => u
  | .trimSE c => c
  | .rsvS d => d
  | .rsvE u => u
  | .rsvSE d => d

/-- Laying out the four fields of IB12: `(op << 10) | (last << 9) | (keep << 8) | data` (R82). -/
def packBeat (op : BitVec 2) (last keep : Bool) (data : Symbol) : Beat :=
  (op.setWidth 12 <<< 10) ||| ((BitVec.ofBool last).setWidth 12 <<< 9) ||| ((BitVec.ofBool keep).setWidth 12 <<< 8) |||
    data.setWidth 12

/-- The 12-bit beat of a form (R82, R91). -/
def encode (i : Instr) : Beat := packBeat i.opBits i.lastBit i.keepBit i.dataBits

/-- The name the opcode table gives a form's row (R91). -/
def Instr.mnemonic : Instr → String
  | .bubble _ _ => "BUBBLE"
  | .encS _ => "ENC.S"
  | .encE _ => "ENC.E"
  | .encSE _ => "ENC.SE"
  | .decS _ => "DEC.S"
  | .decE _ => "DEC.E"
  | .decSE _ => "DEC.SE"
  | .trimS _ => "TRIM.S"
  | .trimE _ => "TRIM.E"
  | .trimSE _ => "TRIM.SE"
  | .rsvS _ => "RSV.S"
  | .rsvE _ => "RSV.E"
  | .rsvSE _ => "RSV.SE"

/-- One row of the opcode map: the beats `w` with `w & mask = pattern` (R91). -/
structure OpcodeRow where
  mnemonic : String
  mask : Beat
  pattern : Beat
  deriving DecidableEq, Repr

/-- The opcode map of R91, in its order. -/
def opcodeRows : List OpcodeRow :=
  [ ⟨"BUBBLE", 0x300#12, 0x000#12⟩,
    ⟨"ENC.S", 0xF00#12, 0x100#12⟩, ⟨"ENC.E", 0xF00#12, 0x200#12⟩, ⟨"ENC.SE", 0xF00#12, 0x300#12⟩,
    ⟨"DEC.S", 0xF00#12, 0x500#12⟩, ⟨"DEC.E", 0xF00#12, 0x600#12⟩, ⟨"DEC.SE", 0xF00#12, 0x700#12⟩,
    ⟨"TRIM.S", 0xF00#12, 0x900#12⟩, ⟨"TRIM.E", 0xF00#12, 0xA00#12⟩, ⟨"TRIM.SE", 0xF00#12, 0xB00#12⟩,
    ⟨"RSV.S", 0xF00#12, 0xD00#12⟩, ⟨"RSV.E", 0xF00#12, 0xE00#12⟩, ⟨"RSV.SE", 0xF00#12, 0xF00#12⟩ ]

/-- Whether a beat lies in a row. -/
def OpcodeRow.covers (r : OpcodeRow) (w : Beat) : Bool := w &&& r.mask == r.pattern

/-- Why a number is no input beat. -/
inductive DecodeError where
  /-- The number needs more than the 12 bits of a beat: no such word can cross the input port (R80, R82). -/
  | widerThanBeat
  deriving DecidableEq, Repr

/-- Reading a number as an input beat. Every number below 4096 is an instruction (R91); a wider one is rejected by name. -/
def decodeNat (w : Nat) : Except DecodeError Instr :=
  if w < 4096 then .ok (decode (BitVec.ofNat 12 w)) else .error .widerThanBeat

/-- The instruction of an opcode-table word: a beat is one word of 12 bits, numbered as the table numbers it, and the
bits the table gives above `nbits` are 0. -/
def decodeTableWord (nbits w : Nat) : Option Instr :=
  match decodeNat (w % 2 ^ nbits) with
  | .ok i => some i
  | .error _ => none

end Sys2Proof
end

