-- ==== Sys2Proof/Config.lean ====
section
/-! DEFINITION. The constants of the block and the parameters the spec asks a model to keep as arguments (00_scope.md R5). -/

namespace Sys2Proof

/-- `PADCHAR`, the character `=`, code 0x3D (R5, R56). -/
def padChar : Symbol := 0x3D#8

/-- The parameters marked "argument" in R5, and `OQ_DEPTH` of the guarded model of R244. They are constants of one
instance: no step changes them. -/
structure Params where
  /-- `SENTINEL`: the reverse-table entry of an invalid character (R5, D5). -/
  sentinel : Symbol
  /-- `PADVAL`: the reverse-table entry of `=` (R5, D6). -/
  padval : Symbol
  /-- `RUN_W`: the width in bits of the TRIM run counter `PR` (R5, D18). -/
  runW : Nat
  /-- `OQ_DEPTH`: `none` is the unbounded queue of R29; `some n` is the guarded model of R244, in which a beat waits
  while its output beats would not fit. -/
  oqDepth : Option Nat
  deriving DecidableEq, Repr

/-- The values R5 gives this hardware: `SENTINEL` 0xFF, `PADVAL` 0x00, `RUN_W` 32, and the unbounded queue of R29. -/
def Params.hw : Params := { sentinel := 0xFF#8, padval := 0x00#8, runW := 32, oqDepth := none }

/-- The constraints on the arguments: `SENTINEL > 63` (D5, R58 item 5) and `RUN_W ≥ 1` (D18). -/
abbrev Params.Legal (p : Params) : Prop := 63#8 < p.sentinel ∧ 1 ≤ p.runW

/-- `2^RUN_W - 1`, the greatest value of `PR` (10_state.md R20). -/
def Params.runMax (p : Params) : Nat := 2 ^ p.runW - 1

end Sys2Proof
end

