-- ==== Sys2Proof/Machine/State.lean ====
section
/-! DEFINITION. The state of one B64P instance and of the host at its two channels, the reasons a step can stop, and the
state after reset (10_state.md R20, R35). -/

namespace Sys2Proof.Machine

/-- The operation of a message. The register `OP` holds 0, 1 or 2, never 3 (10_state.md R25), so its values are these
three names; `Op.code` gives the number. -/
inductive Op where
  /-- `OP` = 0 (R85). -/
  | enc
  /-- `OP` = 1 (R85). -/
  | dec
  /-- `OP` = 2 (R85). -/
  | trim
  deriving DecidableEq, Repr

/-- Which agent moves next (00_scope.md R18). Every interleaving of the agents is a list of moves. -/
inductive Move where
  /-- The producer offers its next beat: one ACCEPT step if the block takes it (40_framing.md R110). -/
  | accept
  /-- The consumer holds `out_ready = 1`: one DELIVER step if a beat waits (20_memory.md R70). -/
  | deliver
  /-- `rst = 1`: one RESET step (70_reset_and_hazards.md R230). -/
  | reset
  deriving DecidableEq, Repr

/-- The nine architectural elements of R20, then the host's side of the two channels and the parameters, which are the
model's own fields. -/
structure State where
  /-- `FLT`: the block has faulted and accepts no more input. -/
  flt : Bool
  /-- `FCODE`: the cause of the fault (60_exceptions.md R201). -/
  fcode : BitVec 2
  /-- `BUSY`: a message is open. -/
  busy : Bool
  /-- `OP`: the operation of the open message, or of the last one. -/
  op : Op
  /-- `GB[0]`, the earliest symbol of the current group. -/
  gb0 : Symbol
  /-- `GB[1]`. -/
  gb1 : Symbol
  /-- `GB[2]`. -/
  gb2 : Symbol
  /-- `GC`: how many cells of `GB` are filled. -/
  gc : BitVec 2
  /-- `PR`: how many `=` of a TRIM message are held back; `RUN_W` bits, so at most `cfg.runMax`. -/
  pr : Nat
  /-- `OQ`: output beats produced and not yet delivered, head first. -/
  oq : List OutBeat
  /-- Host side: the beats the producer will offer, in its order (20_memory.md R65 item 1). -/
  inq : List Beat
  /-- Host side: who moves at the coming steps (00_scope.md R18). -/
  moves : List Move
  /-- Host side: the beats the consumer has taken, oldest first (20_memory.md R70). -/
  taken : List OutBeat
  /-- The parameters of this instance (00_scope.md R5). -/
  cfg : Params
  deriving DecidableEq, Repr

/-- Why the model stops. The block's own two faults (60_exceptions.md R201) are no stops: they are next states with
`FLT = 1`. -/
inductive Fault where
  /-- Raised by an S-shaped or SE-shaped beat under `OP` = ENC while `GC = 3`: 41_encode.md R134 would write `GB[3]`, a
  cell R20 does not give. No run reaches such a state (10_state.md R31 item 2). Safe: the model stops. -/
  | noGroupCell
  deriving DecidableEq, Repr

/-- Why the model has no meaning for an instruction. -/
inductive Refusal where
  /-- Raised by an arm of `exec` whose instruction has no meaning yet. Safe. No arm answers so now. -/
  | notModelled (mnemonic : String)
  deriving DecidableEq, Repr

/-- The state after RESET (10_state.md R35), with no beat offered, no move due and the parameter values of R5. The three
cells of `GB`, which R35 leaves unspecified, hold 0 (DESIGN CHOICE, log entry 1: unsafe, no statement may rest on it). -/
def State.reset : State :=
  { flt := false, fcode := 0#2, busy := false, op := .enc, gb0 := 0#8, gb1 := 0#8, gb2 := 0#8, gc := 0#2, pr := 0,
    oq := [], inq := [], moves := [], taken := [], cfg := Params.hw }

end Sys2Proof.Machine
end

