-- ==== Sys2Proof/Machine/Ops.lean ====
section
/-! DEFINITION. The named operations on the state: writes of its elements, emitting output beats, opening and closing a
message, raising a fault, DELIVER and RESET, the values of the output ports, and whether `OQ` has room. -/

namespace Sys2Proof.Machine

/-- The operation an `op` field selects; 3 selects none (30_encoding.md R85). -/
def Op.ofCode (code : BitVec 2) : Option Op := byOp code (some .enc) (some .dec) (some .trim) none

/-- The number the register `OP` holds (10_state.md R25). -/
def Op.code : Op → BitVec 2
  | .enc => 0#2
  | .dec => 1#2
  | .trim => 2#2

/-- The output beat `SYM(d)` = `0x100 | d` (00_scope.md R11, 30_encoding.md R83). -/
def symBeat (d : Symbol) : OutBeat := 0x100#10 ||| d.setWidth 10

/-- The output beat `END` = `0x200` (R11, R83). -/
def endBeat : OutBeat := 0x200#10

/-- `emit SYM(d)` for each symbol of the list, in order (R11). -/
def State.emitSyms (s : State) (ds : List Symbol) : State := { s with oq := s.oq ++ ds.map symBeat }

/-- `emit END` (R11). -/
def State.emitEnd (s : State) : State := { s with oq := s.oq ++ [endBeat] }

/-- `GC <- g`. -/
def State.setGc (s : State) (g : BitVec 2) : State := { s with gc := g }

/-- `PR <- n`. -/
def State.setPr (s : State) (n : Nat) : State := { s with pr := n }

/-- `GB[k] <- d`. There is no cell 3; `State.storeSymbol` never asks for it. -/
def State.setCell (s : State) (k : BitVec 2) (d : Symbol) : State :=
  { s with
    gb0 := if k = 0#2 then d else s.gb0
    gb1 := if k = 1#2 then d else s.gb1
    gb2 := if k = 2#2 then d else s.gb2 }

/-- `GB[GC] <- d; GC <- GC + 1` (41_encode.md R134, 42_decode.md R158); nothing when `GC = 3`, where no cell is left. -/
def State.storeSymbol (s : State) (d : Symbol) : Option State :=
  if s.gc = 3#2 then none else some ((s.setCell s.gc d).setGc (s.gc + 1#2))

/-- `BUSY <- 1; OP <- o` (40_framing.md R112). -/
def State.openMsg (s : State) (o : Op) : State := { s with busy := true, op := o }

/-- `BUSY <- 0` (40_framing.md R116). -/
def State.closeMsg (s : State) : State := { s with busy := false }

/-- `raise Fault(code)`: `FLT` and `FCODE` are written and every other effect of the beat is abandoned, so this is applied
to the state before the beat (00_scope.md R12, 60_exceptions.md R202). There is no handler to go to (R200). The one way
back is `State.resetBlock` (R204). -/
def State.raiseFault (s : State) (code : BitVec 2) : State := { s with flt := true, fcode := code }

/-- The RESET step (70_reset_and_hazards.md R230): every architectural element at its value of 10_state.md R35. The cells
of `GB` become unspecified there; here they take the value `State.reset` names (log entry 1). What the host holds, and
the parameters, are not the block's and stay. -/
def State.resetBlock (s : State) : State :=
  { s with
    flt := false, fcode := 0#2, busy := false, op := .enc, gb0 := 0#8, gb1 := 0#8, gb2 := 0#8, gc := 0#2, pr := 0,
    oq := [] }

/-- The DELIVER step (20_memory.md R70): the head of `OQ` goes to the consumer. Not enabled, so no change, when `OQ` is
empty. -/
def State.deliver (s : State) : State :=
  match s.oq with
  | [] => s
  | w :: rest => { s with oq := rest, taken := s.taken ++ [w] }

/-- The producer's next beat and the state with it taken off the producer's list. -/
def State.fetch (s : State) : Option (Beat × State) :=
  match s.inq with
  | [] => none
  | w :: rest => some (w, { s with inq := rest })

/-- Port `out_valid`: `OQ` is not empty (20_memory.md R71). -/
def State.outValid (s : State) : Bool := !s.oq.isEmpty

/-- Port `out_beat`: the head of `OQ`; no value while `out_valid = 0` (20_memory.md R71). -/
def State.outBeat (s : State) : Option OutBeat := s.oq.head?

/-- Whether a queue is within `OQ_DEPTH`: always, in the unbounded model of 10_state.md R29; in the guarded model of
70_reset_and_hazards.md R244, when it holds at most `OQ_DEPTH` beats. -/
def State.hasRoom (s : State) : Bool :=
  match s.cfg.oqDepth with
  | none => true
  | some n => decide (s.oq.length ≤ n)

end Sys2Proof.Machine
end

