-- ==== Sys2Proof/Machine/Flags.lean ====
section
/-! DEFINITION. The status bits: the block has no condition codes (10_state.md R23), only `FLT` and `FCODE`, their codes and
the two wires that show them. -/

namespace Sys2Proof.Machine

/-- `FCODE` 1, `RSVOP`: a reserved operation code on an opening beat (60_exceptions.md R201). -/
def rsvopCode : BitVec 2 := 1#2

/-- `FCODE` 2, `RUNOVF`: the run counter of TRIM is full and another `=` arrives (60_exceptions.md R201). -/
def runovfCode : BitVec 2 := 2#2

/-- Port `flt` (10_state.md R30). -/
def State.fltPin (s : State) : Bool := s.flt

/-- Port `flt_code` (10_state.md R30). -/
def State.fltCodePin (s : State) : BitVec 2 := s.fcode

end Sys2Proof.Machine
end

