-- ==== Sys2Proof/Machine/Operands.lean ====
section
/-! DEFINITION. The data paths, which read no state: the two tables, the slicer, the joiner, the padding controller's
overwrite and emit mask, and the path of one whole group of each family. -/

namespace Sys2Proof.Machine

/-- The forward table `FWD` (20_memory.md R55). -/
def fwd (i : Sextet) : Symbol :=
  if i < 26#6 then 0x41#8 + i.setWidth 8
  else if i < 52#6 then 0x61#8 + (i.setWidth 8 - 26#8)
  else if i < 62#6 then 0x30#8 + (i.setWidth 8 - 52#8)
  else if i = 62#6 then 0x2B#8
  else 0x2F#8

/-- The reverse table `REV` (20_memory.md R54). -/
def rev (p : Params) (c : Symbol) : Symbol :=
  if 0x41#8 ≤ c ∧ c ≤ 0x5A#8 then c - 0x41#8
  else if 0x61#8 ≤ c ∧ c ≤ 0x7A#8 then c - 0x61#8 + 26#8
  else if 0x30#8 ≤ c ∧ c ≤ 0x39#8 then c - 0x30#8 + 52#8
  else if c = 0x2B#8 then 62#8
  else if c = 0x2F#8 then 63#8
  else if c = padChar then p.padval
  else p.sentinel

/-- The four sextets of an ENC group. -/
structure Sextets where
  s0 : Sextet
  s1 : Sextet
  s2 : Sextet
  s3 : Sextet
  deriving DecidableEq, Repr

/-- The three bytes of a DEC group. -/
structure Bytes3 where
  b0 : Symbol
  b1 : Symbol
  b2 : Symbol
  deriving DecidableEq, Repr

/-- The 6-bit slicer `SLICE` (41_encode.md R131). Every formula's value is below 64 (R135), so `setWidth 6` drops only
zero bits. -/
def slice (b0 b1 b2 : Symbol) : Sextets :=
  { s0 := (b0 >>> 2).setWidth 6
    s1 := (((b0 &&& 0x03#8) <<< 4) ||| ((b1 &&& 0xF0#8) >>> 4)).setWidth 6
    s2 := (((b1 &&& 0x0F#8) <<< 2) ||| ((b2 &&& 0xC0#8) >>> 6)).setWidth 6
    s3 := (b2 &&& 0x3F#8).setWidth 6 }

/-- `trunc_8` (00_scope.md R8). -/
def trunc8 (x : BitVec 16) : Symbol := x.setWidth 8

/-- The joiner `JOIN` (42_decode.md R154). The shifts lose nothing: they are taken on 16 bits, and only `trunc_8` cuts. -/
def join (v0 v1 v2 v3 : Symbol) : Bytes3 :=
  { b0 := trunc8 ((v0.setWidth 16 <<< 2) ||| (v1.setWidth 16 >>> 4))
    b1 := trunc8 ((v1.setWidth 16 <<< 4) ||| (v2.setWidth 16 >>> 2))
    b2 := trunc8 ((v2.setWidth 16 <<< 6) ||| v3.setWidth 16) }

/-- How many bytes of the last ENC group are missing; 3 cannot occur (41_encode.md R133). -/
inductive Missing where
  | zero
  | one
  | two
  deriving DecidableEq, Repr

/-- The padding controller's overwrite `PADOUT` (41_encode.md R133). -/
def padOut (c0 c1 c2 c3 : Symbol) : Missing → List Symbol
  | .zero => [c0, c1, c2, c3]
  | .one => [c0, c1, c2, padChar]
  | .two => [c0, c1, padChar, padChar]

/-- One ENC group: slicer, four forward lookups, overwrite (41_encode.md R131 to R133). -/
def encGroup (b0 b1 b2 : Symbol) (missing : Missing) : List Symbol :=
  let q := slice b0 b1 b2
  padOut (fwd q.s0) (fwd q.s1) (fwd q.s2) (fwd q.s3) missing

/-- A byte, unless the character that stands for it is `=` (42_decode.md R156). -/
def unlessPad (c b : Symbol) : List Symbol := if c = padChar then [] else [b]

/-- One DEC group `DEC_GROUP`: four reverse lookups, joiner, emit mask (42_decode.md R157). -/
def decGroup (p : Params) (c0 c1 c2 c3 : Symbol) : List Symbol :=
  let b := join (rev p c0) (rev p c1) (rev p c2) (rev p c3)
  b.b0 :: (unlessPad c2 b.b1 ++ unlessPad c3 b.b2)

end Sys2Proof.Machine
end

