-- ==== Sys2Proof/Machine/Groups.lean ====
section
/-! DEFINITION. What the three operations do with one symbol and at the close of a message: the pseudocode functions
`ENC_S`, `ENC_E`, `DEC_S`, `DEC_E`, `TRIM_S`, `TRIM_E`. -/

namespace Sys2Proof.Machine

/-- What becomes of one symbol. -/
inductive SymbolResult where
  /-- The symbol is processed. -/
  | done (s : State)
  /-- `raise Fault(code)`. -/
  | raised (code : BitVec 2)
  /-- The model stops. -/
  | stopped (f : Fault)
  deriving DecidableEq, Repr

/-- The symbol goes into the group buffer; where no cell is left the model stops. -/
def store (d : Symbol) (s : State) : SymbolResult :=
  match s.storeSymbol d with
  | some t => .done t
  | none => .stopped .noGroupCell

/-- `ENC_S(d)` (41_encode.md R134). -/
def encTake (d : Symbol) (s : State) : SymbolResult :=
  if s.gc = 2#2 then .done ((s.emitSyms (encGroup s.gb0 s.gb1 d .zero)).setGc 0#2)
  else store d s

/-- `ENC_E()` (41_encode.md R136). The filler bytes are the constant 0, not the stale cells. -/
def encClose (s : State) : State :=
  if s.gc = 1#2 then (s.emitSyms (encGroup s.gb0 0#8 0#8 .two)).setGc 0#2
  else if s.gc = 2#2 then (s.emitSyms (encGroup s.gb0 s.gb1 0#8 .one)).setGc 0#2
  else s.setGc 0#2

/-- `DEC_S(c)` (42_decode.md R158). -/
def decTake (c : Symbol) (s : State) : SymbolResult :=
  if s.gc = 3#2 then .done ((s.emitSyms (decGroup s.cfg s.gb0 s.gb1 s.gb2 c)).setGc 0#2)
  else store c s

/-- `DEC_E()` (42_decode.md R160). The supplied characters are the constant `=`, not the stale cells. -/
def decClose (s : State) : State :=
  if s.gc = 1#2 then (s.emitSyms (decGroup s.cfg s.gb0 padChar padChar padChar)).setGc 0#2
  else if s.gc = 2#2 then (s.emitSyms (decGroup s.cfg s.gb0 s.gb1 padChar padChar)).setGc 0#2
  else if s.gc = 3#2 then (s.emitSyms (decGroup s.cfg s.gb0 s.gb1 s.gb2 padChar)).setGc 0#2
  else s.setGc 0#2

/-- `TRIM_S(c)` (43_trimpadding.md R183, R184). -/
def trimTake (c : Symbol) (s : State) : SymbolResult :=
  if c = padChar then
    if s.pr = s.cfg.runMax then .raised runovfCode else .done (s.setPr (s.pr + 1))
  else .done ((s.emitSyms (List.replicate s.pr padChar ++ [c])).setPr 0)

/-- `TRIM_E()` (43_trimpadding.md R185): the held run was trailing and is dropped. -/
def trimClose (s : State) : State := s.setPr 0

end Sys2Proof.Machine
end

