-- ==== Sys2Proof/Machine/Accept.lean ====
section
/-! DEFINITION. The ACCEPT step (40_framing.md R110): what one input beat does, shared by all beat forms. -/

namespace Sys2Proof.Machine

/-- The opening part (40_framing.md R112): under an open message nothing, and the `op` field is not read (30_encoding.md
R90); otherwise the message opens under the operation selected, and no state answers for the reserved code (R113). -/
def opening (code : BitVec 2) (s : State) : Option State :=
  if s.busy then some s
  else match Op.ofCode code with
    | some o => some (s.openMsg o)
    | none => none

/-- The symbol part (40_framing.md R114): the symbol goes to the operation in force. -/
def symbolPart (keep : Bool) (d : Symbol) (s : State) : SymbolResult :=
  if keep then
    match s.op with
    | .enc => encTake d s
    | .dec => decTake d s
    | .trim => trimTake d s
  else .done s

/-- The operation's own closing rule. -/
def closeGroup (s : State) : State :=
  match s.op with
  | .enc => encClose s
  | .dec => decClose s
  | .trim => trimClose s

/-- The closing part (40_framing.md R116): the operation's closing rule, then `emit END`, then `BUSY <- 0`. -/
def closingPart (last : Bool) (s : State) : State :=
  if last then (closeGroup s).emitEnd.closeMsg else s

/-- ACCEPT (40_framing.md R110). While `FLT = 1` the beat is not accepted: it waits, and nothing changes (60_exceptions.md
R203). A fault is raised on the state before the beat, since it abandons every other effect of it (R202). -/
def accept (code : BitVec 2) (last keep : Bool) (d : Symbol) (s : State) : Host.Outcome State Fault Refusal :=
  if s.flt then .next s
  else if !last && !keep then .next s
  else match opening code s with
    | none => .next (s.raiseFault rsvopCode)
    | some s1 =>
      match symbolPart keep d s1 with
      | .done s2 => .next (closingPart last s2)
      | .raised c => .next (s.raiseFault c)
      | .stopped f => .fault f

end Sys2Proof.Machine
end

