-- ==== Sys2Proof/Machine/Dec.lean ====
section
/-! DEFINITION. The meanings of the DEC family (42_decode.md). -/

namespace Sys2Proof.Machine

/-- `DEC.S c` (42_decode.md R158): open if no message is open, take one character. -/
def execDecS (c : Symbol) (s : State) : Host.Outcome State Fault Refusal := accept 1#2 false true c s

/-- `DEC.E` (42_decode.md R160): open if no message is open, close. -/
def execDecE (u : Symbol) (s : State) : Host.Outcome State Fault Refusal := accept 1#2 true false u s

/-- `DEC.SE c` (42_decode.md R164): open if no message is open, take one character, close. -/
def execDecSE (c : Symbol) (s : State) : Host.Outcome State Fault Refusal := accept 1#2 true true c s

end Sys2Proof.Machine
end

