-- ==== Sys2Proof/Machine/Enc.lean ====
section
/-! DEFINITION. The meanings of the ENC family (41_encode.md). -/

namespace Sys2Proof.Machine

/-- `ENC.S d` (41_encode.md R134): open if no message is open, take one byte. -/
def execEncS (d : Symbol) (s : State) : Host.Outcome State Fault Refusal := accept 0#2 false true d s

/-- `ENC.E` (41_encode.md R136): open if no message is open, close. -/
def execEncE (u : Symbol) (s : State) : Host.Outcome State Fault Refusal := accept 0#2 true false u s

/-- `ENC.SE d` (41_encode.md R137): open if no message is open, take one byte, close. -/
def execEncSE (d : Symbol) (s : State) : Host.Outcome State Fault Refusal := accept 0#2 true true d s

end Sys2Proof.Machine
end

