-- ==== Sys2Proof/Machine/Framing.lean ====
section
/-! DEFINITION. The meanings of the forms of no operation: `BUBBLE` and the reserved operation code. -/

namespace Sys2Proof.Machine

/-- `BUBBLE` (40_framing.md R111): no effect in any state. -/
def execBubble (op : BitVec 2) (u : Symbol) (s : State) : Host.Outcome State Fault Refusal :=
  accept op false false u s

/-- `RSV.S` (40_framing.md R113): `Fault(1)` on an opening beat, an ordinary S beat under an open message (R90). -/
def execRsvS (d : Symbol) (s : State) : Host.Outcome State Fault Refusal := accept 3#2 false true d s

/-- `RSV.E` (40_framing.md R113): `Fault(1)` on an opening beat, an ordinary E beat under an open message (R90). -/
def execRsvE (u : Symbol) (s : State) : Host.Outcome State Fault Refusal := accept 3#2 true false u s

/-- `RSV.SE` (40_framing.md R113): `Fault(1)` on an opening beat, an ordinary SE beat under an open message (R90). -/
def execRsvSE (d : Symbol) (s : State) : Host.Outcome State Fault Refusal := accept 3#2 true true d s

end Sys2Proof.Machine
end

