-- ==== Sys2Proof/Machine/Trim.lean ====
section
/-! DEFINITION. The meanings of the TRIM family (43_trimpadding.md). -/

namespace Sys2Proof.Machine

/-- `TRIM.S c` (43_trimpadding.md R183): open if no message is open, take one character. -/
def execTrimS (c : Symbol) (s : State) : Host.Outcome State Fault Refusal := accept 2#2 false true c s

/-- `TRIM.E` (43_trimpadding.md R185): open if no message is open, close. -/
def execTrimE (u : Symbol) (s : State) : Host.Outcome State Fault Refusal := accept 2#2 true false u s

/-- `TRIM.SE c` (43_trimpadding.md R187): open if no message is open, take one character, close. -/
def execTrimSE (c : Symbol) (s : State) : Host.Outcome State Fault Refusal := accept 2#2 true true c s

end Sys2Proof.Machine
end

