-- ==== Sys2Proof/Machine/Dispatch.lean ====
section
/-! DEFINITION. One arm per beat form: each calls the form's own meaning. -/

namespace Sys2Proof.Machine

def exec (i : Instr) (s : State) : Host.Outcome State Fault Refusal :=
  match i with
  | .bubble op u => Sys2Proof.Machine.execBubble op u s
  | .encS d => Sys2Proof.Machine.execEncS d s
  | .encE u => Sys2Proof.Machine.execEncE u s
  | .encSE d => Sys2Proof.Machine.execEncSE d s
  | .decS c => Sys2Proof.Machine.execDecS c s
  | .decE u => Sys2Proof.Machine.execDecE u s
  | .decSE c => Sys2Proof.Machine.execDecSE c s
  | .trimS c => Sys2Proof.Machine.execTrimS c s
  | .trimE u => Sys2Proof.Machine.execTrimE u s
  | .trimSE c => Sys2Proof.Machine.execTrimSE c s
  | .rsvS d => Sys2Proof.Machine.execRsvS d s
  | .rsvE u => Sys2Proof.Machine.execRsvE u s
  | .rsvSE d => Sys2Proof.Machine.execRsvSE d s

end Sys2Proof.Machine
end

