-- ==== Sys2Proof/Machine/Channels.lean ====
section
/-! DEFINITION. The moves at the two channels: the port `in_ready`, offering a beat, delivering a beat, reset; and accepting
a list of beats. -/

namespace Sys2Proof.Machine

/-- The output beats of the beat the producer offers fit in `OQ`: always in the unbounded model of 10_state.md R29; in the
guarded model, the test of 70_reset_and_hazards.md R244. With no beat offered there is nothing to fit. A beat on which the
model stops (`Fault.noGroupCell`) counts as fitting, so that it stops. -/
def State.roomForNext (s : State) : Bool :=
  match s.fetch with
  | none => true
  | some (w, s1) =>
    match exec (decode w) s1 with
    | .next t => t.hasRoom
    | .fault _ => true
    | .refused _ => true

/-- Port `in_ready` outside RESET (40_framing.md R110): 1 exactly while the block has not faulted and there is room for what
the offered beat would emit. In the unbounded model of 10_state.md R29 there always is, and the port depends on `FLT` alone.
In the guarded model of 70_reset_and_hazards.md R244 the port shows 0 for as long as the offered beat must wait for room. The
count of R244's test is that beat's own, so there the port depends on the beat offered, which the last sentence of R110
denies (DESIGN CHOICE, log entry 5: unsafe). -/
def State.inReady (s : State) : Bool := !s.flt && s.roomForNext

/-- The producer offers its next beat. It is transferred exactly if `in_ready` shows 1 (30_encoding.md R81): then the block
takes it off the producer's list and acts on it. Otherwise the beat waits and nothing changes (60_exceptions.md R203,
70_reset_and_hazards.md R244). With no beat to offer, nothing happens. -/
def offer (s : State) : Host.Outcome State Fault Refusal :=
  match s.fetch with
  | none => .next s
  | some (w, s1) => if s.inReady then exec (decode w) s1 else .next s

/-- One move of an agent (00_scope.md R18). -/
def runMove (m : Move) (s : State) : Host.Outcome State Fault Refusal :=
  match m with
  | .accept => offer s
  | .deliver => .next s.deliver
  | .reset => .next s.resetBlock

/-- ACCEPT of each beat of a list in turn, with no other step between: the input side of a message. -/
def acceptBeats : List Beat → State → Host.Outcome State Fault Refusal
  | [], s => .next s
  | w :: ws, s =>
    match exec (decode w) s with
    | .next t => acceptBeats ws t
    | .fault f => .fault f
    | .refused r => .refused r

end Sys2Proof.Machine
end

