-- ==== Sys2Proof/Machine/Step.lean ====
section
/-! DEFINITION. One step: the next move of the schedule; and placing a beat as the next one a step takes. -/

namespace Sys2Proof.Machine

/-- One step of the machine: the head of `moves` happens. With no move due, no handshake takes place and nothing changes. -/
def step (s : State) : Host.Outcome State Fault Refusal :=
  match s.moves with
  | [] => .next s
  | m :: ms => runMove m { s with moves := ms }

/-- `s` with a beat at the head of the producer's list and its offering as the next move, so that the very next step takes
it. A number that is no 12-bit beat cannot be placed. -/
def State.withFetchWord (s : State) (nbits w : Nat) : State :=
  if w % 2 ^ nbits < 4096 then
    { s with inq := BitVec.ofNat 12 (w % 2 ^ nbits) :: s.inq, moves := .accept :: s.moves }
  else s

end Sys2Proof.Machine
end

