-- ==== Sys2Proof/Machine/Message.lean ====
section
/-! DEFINITION. The message level: the three functions of the document on whole sequences, how a list of beats spells a
message, and the two standard spellings. -/

namespace Sys2Proof.Machine

/-- `ENCODE(m)` (41_encode.md R130). -/
def encodeMsg : List Symbol → List Symbol
  | [] => []
  | [b0] => encGroup b0 0#8 0#8 .two
  | [b0, b1] => encGroup b0 b1 0#8 .one
  | b0 :: b1 :: b2 :: m => encGroup b0 b1 b2 .zero ++ encodeMsg m

/-- The groups of four of a text, decoded in order; what is left over at the end is not a group. -/
def decodeGroups (p : Params) : List Symbol → List Symbol
  | c0 :: c1 :: c2 :: c3 :: t => decGroup p c0 c1 c2 c3 ++ decodeGroups p t
  | _ => []

/-- The text right-padded with `=` to a multiple of 4 (42_decode.md R150, R151). -/
def padText (t : List Symbol) : List Symbol := t ++ List.replicate ((4 - t.length % 4) % 4) padChar

/-- `DECODE(t)` (42_decode.md R150). -/
def decodeMsg (p : Params) (t : List Symbol) : List Symbol := decodeGroups p (padText t)

/-- How many `=` end a text: the `r` of 43_trimpadding.md R180. -/
def trailingPads (t : List Symbol) : Nat := (t.reverse.takeWhile (· == padChar)).length

/-- `TRIMPAD(t)` (43_trimpadding.md R180). -/
def trimMsg (t : List Symbol) : List Symbol := t.take (t.length - trailingPads t)

/-- No run of `=` is longer than `limit`, when `r` of them have gone before (43_trimpadding.md R184, R186). -/
def runsWithin (limit : Nat) : Nat → List Symbol → Bool
  | _, [] => true
  | r, c :: t => if c = padChar then decide (r + 1 ≤ limit) && runsWithin limit (r + 1) t else runsWithin limit 0 t

/-- The output message of an input message (20_memory.md R72). -/
def messageValue (p : Params) : Op → List Symbol → List Symbol
  | .enc, m => encodeMsg m
  | .dec, m => decodeMsg p m
  | .trim, m => trimMsg m

/-- The symbol a beat carries, if any (30_encoding.md R87). -/
def beatSymbols (w : Beat) : List Symbol := if beatKeep w then [beatData w] else []

/-- The symbols of the beats of one message, bubbles dropped; `none` unless the list ends at its first beat with
`last = 1` (30_encoding.md R87). -/
def messageSymbols : List Beat → Option (List Symbol)
  | [] => none
  | w :: ws =>
    if beatBubble w then messageSymbols ws
    else if beatLast w then (if ws = [] then some (beatSymbols w) else none)
    else match messageSymbols ws with
      | some m => some (beatSymbols w ++ m)
      | none => none

/-- The message a list of beats spells when the first is accepted with `BUSY = 0`: the operation of the first beat that is
no bubble, and the symbols (30_encoding.md R87). `none` for the reserved operation and for a list that is not one whole
message. -/
def readMessage : List Beat → Option (BitVec 2 × List Symbol)
  | [] => none
  | w :: ws =>
    if beatBubble w then readMessage ws
    else if beatOp w = 3#2 then none
    else match messageSymbols (w :: ws) with
      | some m => some (beatOp w, m)
      | none => none

/-- The split expansion (30_encoding.md R92): every symbol as an S beat, then an E beat. -/
def splitBeats (op : BitVec 2) (m : List Symbol) : List Beat :=
  m.map (packBeat op false true) ++ [packBeat op true false 0#8]

/-- The canonical expansion (30_encoding.md R92): an E beat for the empty message; otherwise S beats and an SE beat for the
last symbol. -/
def canonicalBeats (op : BitVec 2) : List Symbol → List Beat
  | [] => [packBeat op true false 0#8]
  | [d] => [packBeat op true true d]
  | d :: m => packBeat op false true d :: canonicalBeats op m

end Sys2Proof.Machine
end

