-- ==== Sys2Proof/Safety.lean ====
section
/-! DEFINITION. What the claims are about: the invariants of 10_state.md R31, the kinds of states of a run, and states that
agree but for stale cells. -/

namespace Sys2Proof.Machine

/-- An output beat the block may emit: `SYM(d)` or `END` (30_encoding.md R83). -/
abbrev OutBeatOk (w : OutBeat) : Prop := w = symBeat (w.setWidth 8) ∨ w = endBeat

/-- The invariants of 10_state.md R31, in its order (item 5 holds by the type of `OP`), with the width of `PR` (R20) and
the constraints on the parameters (D5, D18). -/
abbrev State.Inv (s : State) : Prop :=
  (s.busy = false → s.gc = 0#2 ∧ s.pr = 0) ∧
  (s.busy = true → s.op = .enc → s.gc ≤ 2#2 ∧ s.pr = 0) ∧
  (s.busy = true → s.op = .dec → s.pr = 0) ∧
  (s.busy = true → s.op = .trim → s.gc = 0#2) ∧
  (s.flt = false → s.fcode = 0#2) ∧
  (s.flt = true → s.fcode = rsvopCode ∨ s.fcode = runovfCode) ∧
  (∀ w ∈ s.oq, OutBeatOk w) ∧
  s.pr ≤ s.cfg.runMax ∧
  s.cfg.Legal

/-- The state between messages (10_state.md R32): at its reset value but for `OP`, the cells of `GB` and `OQ`. -/
abbrev State.BetweenMessages (s : State) : Prop :=
  s.flt = false ∧ s.fcode = 0#2 ∧ s.busy = false ∧ s.gc = 0#2 ∧ s.pr = 0

/-- A complete run ends here (40_framing.md R119): nothing to offer, `OQ` empty, no message open, no fault. -/
abbrev State.Complete (s : State) : Prop :=
  s.inq = [] ∧ s.oq = [] ∧ s.busy = false ∧ s.flt = false

/-- Which operation a beat written for `o` acts under: its own when it opens a message, the latched one otherwise
(30_encoding.md R90). `InForce o s` says that it is `o`. -/
abbrev InForce (o : Op) (s : State) : Prop := s.busy = false ∨ s.op = o

/-- Two states that differ at most in cells of `GB` that hold no symbol of the current group, the stale cells of
10_state.md R26. -/
abbrev SameButStale (s t : State) : Prop :=
  t = { s with gb0 := t.gb0, gb1 := t.gb1, gb2 := t.gb2 } ∧
  (1#2 ≤ s.gc → t.gb0 = s.gb0) ∧ (2#2 ≤ s.gc → t.gb1 = s.gb1) ∧ (3#2 ≤ s.gc → t.gb2 = s.gb2)

/-- What the host side and the parameters hold is left alone. -/
abbrev SameHost (s t : State) : Prop :=
  t.inq = s.inq ∧ t.moves = s.moves ∧ t.taken = s.taken ∧ t.cfg = s.cfg

end Sys2Proof.Machine
end

