-- ==== Sys2Proof/Certificates/Slice0/Obligations.lean ====
section
/-! DEFINITION. What is claimed of the model: the spec's rules stated over it. Nothing is proved here. -/

open Sys2Proof Sys2Proof.Machine

/-- 30_encoding.md section 7 (R92): the words the spec writes out, and some of its vectors, decode to the forms they spell. -/
def Obligations.SpecWordsDecode : Prop :=
  decode 0x14D#12 = .encS 0x4D#8 ∧ decode 0x36E#12 = .encSE 0x6E#8 ∧ decode 0x200#12 = .encE 0#8 ∧
  decode 0x554#12 = .decS 0x54#8 ∧ decode 0x73D#12 = .decSE 0x3D#8 ∧ decode 0x600#12 = .decE 0#8 ∧
  decode 0x93D#12 = .trimS 0x3D#8 ∧ decode 0xB61#12 = .trimSE 0x61#8 ∧ decode 0xA00#12 = .trimE 0#8 ∧
  decode 0xD61#12 = .rsvS 0x61#8 ∧ decode 0xE00#12 = .rsvE 0#8 ∧ decode 0xF6E#12 = .rsvSE 0x6E#8 ∧
  decode 0x000#12 = .bubble 0#2 0#8 ∧ decode 0xCFF#12 = .bubble 3#2 0xFF#8

/-- R82, R91: decoding undoes encoding for every form and operand, and encoding undoes decoding for all 4096 beats. -/
def Obligations.DecodeEncodeRoundTrip : Prop :=
  (∀ i : Instr, i.wf = true → decode (encode i) = i) ∧ (∀ w : Beat, encode (decode w) = w)

/-- R91: the 13 rows partition the 4096 beats, and `decode` names the row a beat falls in. -/
def Obligations.RowsPartitionBeats : Prop :=
  ∀ w : Beat, ∃ r ∈ opcodeRows, r.covers w = true ∧ r.mnemonic = (decode w).mnemonic ∧
    ∀ r' ∈ opcodeRows, r'.covers w = true → r' = r

/-- R82: a beat as a number, from its four fields, and the fields from the number. -/
def Obligations.BeatIsSumOfFields : Prop :=
  (∀ w : Beat, w.toNat =
    ((beatOp w).toNat <<< 10) ||| ((beatLast w).toNat <<< 9) ||| ((beatKeep w).toNat <<< 8) ||| (beatData w).toNat) ∧
  (∀ i : Instr, beatOp (encode i) = i.opBits ∧ beatLast (encode i) = i.lastBit ∧ beatKeep (encode i) = i.keepBit ∧
    beatData (encode i) = i.dataBits)

/-- R55, with the codes of R56: the forward table, piece by piece. -/
def Obligations.ForwardTableFollowsAlphabet : Prop :=
  ∀ i : Sextet,
    (i.toNat ≤ 25 → (fwd i).toNat = 0x41 + i.toNat) ∧
    (26 ≤ i.toNat ∧ i.toNat ≤ 51 → (fwd i).toNat = 0x61 + (i.toNat - 26)) ∧
    (52 ≤ i.toNat ∧ i.toNat ≤ 61 → (fwd i).toNat = 0x30 + (i.toNat - 52)) ∧
    (i.toNat = 62 → fwd i = 0x2B#8) ∧ (i.toNat = 63 → fwd i = 0x2F#8)

/-- R54: the reverse table, line by line, for every value of the two arguments; this hardware's values of the two. -/
def Obligations.ReverseTableFollowsAlphabet : Prop :=
  (∀ (p : Params) (c : Symbol),
    (0x41 ≤ c.toNat ∧ c.toNat ≤ 0x5A → (rev p c).toNat = c.toNat - 0x41) ∧
    (0x61 ≤ c.toNat ∧ c.toNat ≤ 0x7A → (rev p c).toNat = c.toNat - 0x61 + 26) ∧
    (0x30 ≤ c.toNat ∧ c.toNat ≤ 0x39 → (rev p c).toNat = c.toNat - 0x30 + 52) ∧
    (c = 0x2B#8 → rev p c = 62#8) ∧ (c = 0x2F#8 → rev p c = 63#8) ∧ (c = 0x3D#8 → rev p c = p.padval) ∧
    (¬(0x41 ≤ c.toNat ∧ c.toNat ≤ 0x5A) ∧ ¬(0x61 ≤ c.toNat ∧ c.toNat ≤ 0x7A) ∧ ¬(0x30 ≤ c.toNat ∧ c.toNat ≤ 0x39) ∧
      c ≠ 0x2B#8 ∧ c ≠ 0x2F#8 ∧ c ≠ 0x3D#8 → rev p c = p.sentinel)) ∧
  Params.hw.sentinel = 0xFF#8 ∧ Params.hw.padval = 0x00#8

/-- R58: the five laws of the two tables, for every legal value of the arguments. -/
def Obligations.TablesAreInverse : Prop :=
  ∀ p : Params, p.Legal →
    (∀ i : Sextet, rev p (fwd i) = i.setWidth 8) ∧
    (∀ c : Symbol, (∃ i, fwd i = c) → fwd ((rev p c).setWidth 6) = c) ∧
    ((∀ i j : Sextet, fwd i = fwd j → i = j) ∧ ∀ i : Sextet, fwd i ≠ padChar) ∧
    (∀ c : Symbol, rev p c ≤ 63#8 ↔ (∃ i, fwd i = c) ∨ (c = padChar ∧ p.padval ≤ 63#8)) ∧
    63#8 < p.sentinel

/-- R131 (and R60 for ENC): the slicer's four formulas on numbers, their bit-field form read as numbers, and the 24-bit word
that the four sextets cut. -/
def Obligations.SlicerCutsTheWord : Prop :=
  ∀ b0 b1 b2 : Symbol,
    (slice b0 b1 b2).s0.toNat = b0.toNat >>> 2 ∧
    (slice b0 b1 b2).s1.toNat = ((b0.toNat &&& 0x03) <<< 4) ||| ((b1.toNat &&& 0xF0) >>> 4) ∧
    (slice b0 b1 b2).s2.toNat = ((b1.toNat &&& 0x0F) <<< 2) ||| ((b2.toNat &&& 0xC0) >>> 6) ∧
    (slice b0 b1 b2).s3.toNat = b2.toNat &&& 0x3F ∧
    (slice b0 b1 b2).s0.toNat = b0.toNat / 4 ∧
    (slice b0 b1 b2).s1.toNat = (b0.toNat % 4) * 16 + b1.toNat / 16 ∧
    (slice b0 b1 b2).s2.toNat = (b1.toNat % 16) * 4 + b2.toNat / 64 ∧
    (slice b0 b1 b2).s3.toNat = b2.toNat % 64 ∧
    (((slice b0 b1 b2).s0.toNat * 64 + (slice b0 b1 b2).s1.toNat) * 64 + (slice b0 b1 b2).s2.toNat) * 64 +
      (slice b0 b1 b2).s3.toNat = (b0.toNat * 256 + b1.toNat) * 256 + b2.toNat

/-- R154: the joiner's three formulas on numbers, with `trunc_8` as the remainder by 256. -/
def Obligations.JoinerFormulas : Prop :=
  ∀ v0 v1 v2 v3 : Symbol,
    (join v0 v1 v2 v3).b0.toNat = ((v0.toNat <<< 2) ||| (v1.toNat >>> 4)) % 256 ∧
    (join v0 v1 v2 v3).b1.toNat = ((v1.toNat <<< 4) ||| (v2.toNat >>> 2)) % 256 ∧
    (join v0 v1 v2 v3).b2.toNat = ((v2.toNat <<< 6) ||| v3.toNat) % 256

/-- R155: the joiner with the truncation carried out, and what a sentinel of 255 at each place gives. -/
def Obligations.JoinerTruncatedForms : Prop :=
  (∀ v0 v1 v2 v3 : Symbol, join v0 v1 v2 v3 =
    { b0 := ((v0 &&& 0x3F#8) <<< 2) ||| (v1 >>> 4)
      b1 := ((v1 &&& 0x0F#8) <<< 4) ||| (v2 >>> 2)
      b2 := ((v2 &&& 0x03#8) <<< 6) ||| v3 }) ∧
  (∀ v1 v2 v3 : Symbol, (join 0xFF#8 v1 v2 v3).b0 = 0xFC#8 ||| (v1 >>> 4)) ∧
  (∀ v0 v2 v3 : Symbol, (join v0 0xFF#8 v2 v3).b0 = ((v0 &&& 0x3F#8) <<< 2) ||| 0x0F#8 ∧
    (join v0 0xFF#8 v2 v3).b1 = 0xF0#8 ||| (v2 >>> 2)) ∧
  (∀ v0 v1 v3 : Symbol, (join v0 v1 0xFF#8 v3).b1 = ((v1 &&& 0x0F#8) <<< 4) ||| 0x3F#8 ∧
    (join v0 v1 0xFF#8 v3).b2 = 0xC0#8 ||| v3) ∧
  (∀ v0 v1 v2 : Symbol, (join v0 v1 v2 0xFF#8).b2 = 0xFF#8)

/-- R135, R60: slicer and joiner are inverse to each other, the joiner on values below 64. -/
def Obligations.SlicerAndJoinerInverse : Prop :=
  (∀ b0 b1 b2 : Symbol,
    join ((slice b0 b1 b2).s0.setWidth 8) ((slice b0 b1 b2).s1.setWidth 8) ((slice b0 b1 b2).s2.setWidth 8)
      ((slice b0 b1 b2).s3.setWidth 8) = { b0 := b0, b1 := b1, b2 := b2 }) ∧
  (∀ (s0 s1 s2 s3 : Sextet) (b : Bytes3),
    b = join (s0.setWidth 8) (s1.setWidth 8) (s2.setWidth 8) (s3.setWidth 8) →
      slice b.b0 b.b1 b.b2 = { s0 := s0, s1 := s1, s2 := s2, s3 := s3 })

/-- R133: the padding controller's overwrite; in a padded ENC group the overwritten characters are `A`, and the kept one
beside the first `=` has zero filler bits. -/
def Obligations.PaddedGroupKeepsZeroFiller : Prop :=
  (∀ c0 c1 c2 c3 : Symbol, padOut c0 c1 c2 c3 .zero = [c0, c1, c2, c3] ∧ padOut c0 c1 c2 c3 .one = [c0, c1, c2, 0x3D#8] ∧
    padOut c0 c1 c2 c3 .two = [c0, c1, 0x3D#8, 0x3D#8]) ∧
  (∀ b0 b1 b2 : Symbol, encGroup b0 b1 b2 .zero =
    [fwd (slice b0 b1 b2).s0, fwd (slice b0 b1 b2).s1, fwd (slice b0 b1 b2).s2, fwd (slice b0 b1 b2).s3]) ∧
  (∀ b0 b1 : Symbol, fwd (slice b0 b1 0#8).s3 = 0x41#8 ∧ encGroup b0 b1 0#8 .one =
    [fwd (slice b0 b1 0#8).s0, fwd (slice b0 b1 0#8).s1, fwd (((b1 &&& 0x0F#8) <<< 2).setWidth 6), 0x3D#8]) ∧
  (∀ b0 : Symbol, fwd (slice b0 0#8 0#8).s2 = 0x41#8 ∧ fwd (slice b0 0#8 0#8).s3 = 0x41#8 ∧ encGroup b0 0#8 0#8 .two =
    [fwd (slice b0 0#8 0#8).s0, fwd (((b0 &&& 0x03#8) <<< 4).setWidth 6), 0x3D#8, 0x3D#8])

/-- R156, the four rows of its table: which bytes of a DEC group are emitted, by the codes of characters 2 and 3 alone. -/
def Obligations.EmitMaskTable : Prop :=
  ∀ (p : Params) (c0 c1 c2 c3 : Symbol) (b : Bytes3), b = join (rev p c0) (rev p c1) (rev p c2) (rev p c3) →
    (c2 ≠ 0x3D#8 → c3 ≠ 0x3D#8 → decGroup p c0 c1 c2 c3 = [b.b0, b.b1, b.b2]) ∧
    (c2 ≠ 0x3D#8 → c3 = 0x3D#8 → decGroup p c0 c1 c2 c3 = [b.b0, b.b1]) ∧
    (c2 = 0x3D#8 → c3 = 0x3D#8 → decGroup p c0 c1 c2 c3 = [b.b0]) ∧
    (c2 = 0x3D#8 → c3 ≠ 0x3D#8 → decGroup p c0 c1 c2 c3 = [b.b0, b.b2])

/-- R35: the values after reset. Nothing is said of the cells of `GB`, which R35 leaves unspecified. -/
def Obligations.ResetStateValues : Prop :=
  State.reset.flt = false ∧ State.reset.fcode = 0#2 ∧ State.reset.busy = false ∧ State.reset.op = .enc ∧
  State.reset.gc = 0#2 ∧ State.reset.pr = 0 ∧ State.reset.oq = [] ∧ State.reset.fltPin = false ∧
  State.reset.fltCodePin = 0#2 ∧ State.reset.outValid = false ∧ State.reset.inReady = true

/-- R230, R233: the RESET step, in every state, the faulted and the busy ones too. That `inq`, `taken`, `cfg` and the rest of
the schedule stay is no rule of the spec: it is the model's choice of log entry 3 (DESIGN CHOICE). -/
def Obligations.ResetStepClears : Prop :=
  ∀ (s : State) (ms : List Move), s.moves = .reset :: ms →
    ∃ t, step s = .next t ∧ t.flt = false ∧ t.fcode = 0#2 ∧ t.busy = false ∧ t.op = .enc ∧ t.gc = 0#2 ∧ t.pr = 0 ∧
      t.oq = [] ∧ t.inq = s.inq ∧ t.moves = ms ∧ t.taken = s.taken ∧ t.cfg = s.cfg

/-- R31 at reset. -/
def Obligations.ResetMeetsInvariants : Prop := State.reset.Inv

/-- R31: every step, from any state that meets the invariants, gives a state that meets them. -/
def Obligations.StepKeepsInvariants : Prop :=
  ∀ s t : State, s.Inv → step s = .next t → t.Inv

/-- No state that meets the invariants makes the model stop: each of the 13 forms, and each step, answers a next state. -/
def Obligations.NoStopUnderInvariants : Prop :=
  ∀ s : State, s.Inv → (∀ i : Instr, ∃ t, exec i s = .next t) ∧ ∃ t, step s = .next t

/-- R111: a bubble has no effect, in any state, whatever its `op` and `data`. -/
def Obligations.BubbleHasNoEffect : Prop :=
  ∀ (op : BitVec 2) (u : Symbol) (s : State), exec (.bubble op u) s = .next s

/-- R113: the reserved operation raises `Fault(1)` when it would open a message and abandons all else; under an open
message its beats are ordinary continuing beats, and they complete as those of the open operation do. -/
def Obligations.ReservedOperation : Prop :=
  (∀ (s : State) (d : Symbol), s.flt = false → s.busy = false →
    exec (.rsvS d) s = .next { s with flt := true, fcode := 1#2 } ∧
    exec (.rsvE d) s = .next { s with flt := true, fcode := 1#2 } ∧
    exec (.rsvSE d) s = .next { s with flt := true, fcode := 1#2 }) ∧
  (∀ (s : State) (d : Symbol), s.busy = true →
    exec (.rsvS d) s = exec (.encS d) s ∧ exec (.rsvE d) s = exec (.encE d) s ∧ exec (.rsvSE d) s = exec (.encSE d) s) ∧
  (∀ (s : State) (d : Symbol), s.flt = false → s.busy = true → (s.op = .enc → s.gc ≠ 3#2) → (s.op = .trim → d ≠ 0x3D#8) →
    (∃ t, exec (.rsvS d) s = .next t ∧ t.flt = false ∧ t.busy = true ∧ t.op = s.op) ∧
    (∃ t, exec (.rsvE d) s = .next t ∧ t.flt = false ∧ t.busy = false ∧ t.op = s.op) ∧
    (∃ t, exec (.rsvSE d) s = .next t ∧ t.flt = false ∧ t.busy = false ∧ t.op = s.op))

/-- R90: with `BUSY = 1` the `op` field is ignored; with `BUSY = 0` it is read and latched into `OP`. -/
def Obligations.OpReadOnlyWhenOpening : Prop :=
  (∀ (s : State) (v w : Beat), s.busy = true → beatLast v = beatLast w → beatKeep v = beatKeep w →
    beatData v = beatData w → exec (decode v) s = exec (decode w) s) ∧
  (∀ (s t : State) (w : Beat), s.flt = false → s.busy = false → beatBubble w = false → beatOp w ≠ 3#2 →
    exec (decode w) s = .next t → t.flt = false → t.op.code = beatOp w ∧ t.busy = !beatLast w)

/-- R89: the ignored fields. Any two values give the same result, in every state. -/
def Obligations.IgnoredFieldsHaveNoEffect : Prop :=
  ∀ (s : State) (u v : Symbol) (o o' : BitVec 2),
    exec (.bubble o u) s = exec (.bubble o' v) s ∧ exec (.encE u) s = exec (.encE v) s ∧
    exec (.decE u) s = exec (.decE v) s ∧ exec (.trimE u) s = exec (.trimE v) s ∧ exec (.rsvE u) s = exec (.rsvE v) s

/-- R134, with the opening of R112: `ENC.S d`, opening or under an open ENC message. -/
def Obligations.EncSymbolResult : Prop :=
  ∀ (s : State) (d : Symbol), s.flt = false → InForce .enc s → s.gc ≠ 3#2 →
    exec (.encS d) s = .next
      (if s.gc = 2#2 then
        { s with
          busy := true, op := .enc, gc := 0#2
          oq := s.oq ++ [symBeat (fwd (slice s.gb0 s.gb1 d).s0), symBeat (fwd (slice s.gb0 s.gb1 d).s1),
            symBeat (fwd (slice s.gb0 s.gb1 d).s2), symBeat (fwd (slice s.gb0 s.gb1 d).s3)] }
      else
        { s with
          busy := true, op := .enc, gc := s.gc + 1#2
          gb0 := if s.gc = 0#2 then d else s.gb0
          gb1 := if s.gc = 1#2 then d else s.gb1 })

/-- R136, with the opening of R112 and the closing of R116: `ENC.E`, opening or under an open ENC message. -/
def Obligations.EncCloseResult : Prop :=
  ∀ (s : State) (u : Symbol), s.flt = false → InForce .enc s →
    exec (.encE u) s = .next
      { s with
        busy := false, op := .enc, gc := 0#2
        oq := s.oq ++
          (if s.gc = 1#2 then
            [symBeat (fwd (slice s.gb0 0#8 0#8).s0), symBeat (fwd (slice s.gb0 0#8 0#8).s1), symBeat 0x3D#8, symBeat 0x3D#8]
          else if s.gc = 2#2 then
            [symBeat (fwd (slice s.gb0 s.gb1 0#8).s0), symBeat (fwd (slice s.gb0 s.gb1 0#8).s1),
              symBeat (fwd (slice s.gb0 s.gb1 0#8).s2), symBeat 0x3D#8]
          else []) ++ [endBeat] }

/-- R137: `ENC.SE d` is `ENC.S d` and then `ENC.E`, in one step. -/
def Obligations.EncSymbolThenClose : Prop :=
  ∀ (s : State) (d u : Symbol), s.flt = false → InForce .enc s → s.gc ≠ 3#2 →
    ∃ t1 t2, exec (.encS d) s = .next t1 ∧ exec (.encE u) t1 = .next t2 ∧ exec (.encSE d) s = .next t2

/-- The model's own stop (log entry 6): R134 would write `GB[3]`, which R20 does not give. No run reaches it (R31). -/
def Obligations.EncStopsWithoutCell : Prop :=
  ∀ (s : State) (d : Symbol), s.flt = false → InForce .enc s → s.gc = 3#2 →
    exec (.encS d) s = .fault .noGroupCell ∧ exec (.encSE d) s = .fault .noGroupCell

/-- R158, with the opening of R112: `DEC.S c`, opening or under an open DEC message. -/
def Obligations.DecSymbolResult : Prop :=
  ∀ (s : State) (c : Symbol), s.flt = false → InForce .dec s →
    exec (.decS c) s = .next
      (if s.gc = 3#2 then
        { s with
          busy := true, op := .dec, gc := 0#2
          oq := s.oq ++ (decGroup s.cfg s.gb0 s.gb1 s.gb2 c).map symBeat }
      else
        { s with
          busy := true, op := .dec, gc := s.gc + 1#2
          gb0 := if s.gc = 0#2 then c else s.gb0
          gb1 := if s.gc = 1#2 then c else s.gb1
          gb2 := if s.gc = 2#2 then c else s.gb2 })

/-- R160, with the opening of R112 and the closing of R116: `DEC.E`, opening or under an open DEC message. -/
def Obligations.DecCloseResult : Prop :=
  ∀ (s : State) (u : Symbol), s.flt = false → InForce .dec s →
    exec (.decE u) s = .next
      { s with
        busy := false, op := .dec, gc := 0#2
        oq := s.oq ++
          (if s.gc = 1#2 then (decGroup s.cfg s.gb0 0x3D#8 0x3D#8 0x3D#8).map symBeat
          else if s.gc = 2#2 then (decGroup s.cfg s.gb0 s.gb1 0x3D#8 0x3D#8).map symBeat
          else if s.gc = 3#2 then (decGroup s.cfg s.gb0 s.gb1 s.gb2 0x3D#8).map symBeat
          else []) ++ [endBeat] }

/-- R164: `DEC.SE c` is `DEC.S c` and then `DEC.E`, in one step. -/
def Obligations.DecSymbolThenClose : Prop :=
  ∀ (s : State) (c u : Symbol), s.flt = false → InForce .dec s →
    ∃ t1 t2, exec (.decS c) s = .next t1 ∧ exec (.decE u) t1 = .next t2 ∧ exec (.decSE c) s = .next t2

/-- R183, R184, with the opening of R112: `TRIM.S c`, opening or under an open TRIM message. An `=` is counted, or faults
where the counter is full; another character replays the held run before it. That the fault of an opening beat leaves `BUSY`
and `OP` as they were is not said by R183: it is the model's reading of R202 item 3, log entry 11 (DEDUCED). -/
def Obligations.TrimSymbolResult : Prop :=
  ∀ (s : State) (c : Symbol), s.flt = false → InForce .trim s →
    exec (.trimS c) s = .next
      (if c = 0x3D#8 then
        (if s.pr = 2 ^ s.cfg.runW - 1 then { s with flt := true, fcode := 2#2 }
        else { s with busy := true, op := .trim, pr := s.pr + 1 })
      else
        { s with
          busy := true, op := .trim, pr := 0
          oq := s.oq ++ (List.replicate s.pr (symBeat 0x3D#8) ++ [symBeat c]) })

/-- R184: an `=` when the run counter is full raises `Fault(2)`, and the closing part of an SE beat is not executed. -/
def Obligations.TrimRunOverflow : Prop :=
  ∀ s : State, s.flt = false → s.busy = true → s.op = .trim → s.pr = 2 ^ s.cfg.runW - 1 →
    exec (.trimS 0x3D#8) s = .next { s with flt := true, fcode := 2#2 } ∧
    exec (.trimSE 0x3D#8) s = .next { s with flt := true, fcode := 2#2 }

/-- R185, with the opening of R112 and the closing of R116: `TRIM.E`, opening or under an open TRIM message. -/
def Obligations.TrimCloseResult : Prop :=
  ∀ (s : State) (u : Symbol), s.flt = false → InForce .trim s →
    exec (.trimE u) s = .next { s with busy := false, op := .trim, pr := 0, oq := s.oq ++ [endBeat] }

/-- R187: `TRIM.SE c` is `TRIM.S c` and then `TRIM.E`, in one step. That after a fault of the first the second answers the
unchanged state is the model's reading of R203, log entry 4 (DEDUCED), and the fault of an opening beat is that of log entry
11 (DEDUCED, from R202 item 3). -/
def Obligations.TrimSymbolThenClose : Prop :=
  ∀ (s : State) (c u : Symbol), s.flt = false → InForce .trim s →
    ∃ t1 t2, exec (.trimS c) s = .next t1 ∧ exec (.trimE u) t1 = .next t2 ∧ exec (.trimSE c) s = .next t2 ∧
      (t1.flt = true → t2 = t1)

/-- R203, R70: while `FLT = 1` no beat is taken, whatever is offered; output still drains. R203 says only that no ACCEPT step
is enabled: that every form then answers the unchanged state is the model's choice of log entry 4 (DEDUCED), and that a
refused offer uses up its move is the model's choice of log entry 3 (DESIGN CHOICE). -/
def Obligations.FaultedBlockOnlyDrains : Prop :=
  ∀ s : State, s.flt = true →
    s.inReady = false ∧ s.fltPin = true ∧ s.fltCodePin = s.fcode ∧
    (∀ i : Instr, exec i s = .next s) ∧
    (∀ ms, s.moves = .accept :: ms → step s = .next { s with moves := ms }) ∧
    (∀ ms w rest, s.moves = .deliver :: ms → s.oq = w :: rest →
      step s = .next { s with moves := ms, oq := rest, taken := s.taken ++ [w] })

/-- R201, R202: a beat that raises a fault writes `FLT` and `FCODE` and nothing else, and these are the only two causes. R110
and R206 say that no opening beat faults with code 2, since `PR = 0` at every opening. The statement is over every state, so
it also speaks of an opening TRIM beat with `PR` full: that it faults there with code 2 and leaves `BUSY` and `OP` as they
were is the model's reading of R202 item 3, log entry 11 (DEDUCED), in states that no run reaches. -/
def Obligations.FaultCausesAndEntry : Prop :=
  ∀ (i : Instr) (s t : State), s.flt = false → exec i s = .next t → t.flt = true →
    t = { s with flt := true, fcode := t.fcode } ∧
    ((t.fcode = 1#2 ∧ s.busy = false ∧ i.opBits = 3#2 ∧ (i.lastBit = true ∨ i.keepBit = true)) ∨
     (t.fcode = 2#2 ∧ i.keepBit = true ∧ i.dataBits = 0x3D#8 ∧ s.pr = 2 ^ s.cfg.runW - 1 ∧
       (s.busy = true → s.op = .trim) ∧ (s.busy = false → i.opBits = 2#2)))

/-- R204: only RESET clears `FLT`, and until then `FCODE` names the first fault. R204 says nothing of the kept `BUSY` and of the
producer's beats: that both stay is R203, by which no ACCEPT step is enabled, read as in log entry 4 (DEDUCED: the state is
unchanged and an offered beat waits in `inq`). -/
def Obligations.FaultStaysUntilReset : Prop :=
  ∀ s t : State, s.flt = true → step s = .next t →
    (s.moves.head? ≠ some .reset → t.flt = true ∧ t.fcode = s.fcode ∧ t.busy = s.busy ∧ t.inq = s.inq) ∧
    (s.moves.head? = some .reset → t.flt = false ∧ t.fcode = 0#2 ∧ t.busy = false ∧ t.oq = [])

/-- R70: DELIVER hands the head of `OQ` to the consumer and changes nothing else. R70 says only that DELIVER is not enabled
with `OQ` empty: that the move is then used up with no other change, and that the beats delivered are kept in `taken`, is the
model's choice of log entry 3 (DESIGN CHOICE). -/
def Obligations.DeliverMovesTheHead : Prop :=
  ∀ (s : State) (ms : List Move), s.moves = .deliver :: ms →
    (∀ w rest, s.oq = w :: rest → step s = .next { s with moves := ms, oq := rest, taken := s.taken ++ [w] }) ∧
    (s.oq = [] → step s = .next { s with moves := ms })

/-- R71, R240: the output ports show the head of `OQ`, and no input beat changes a beat that is offered. -/
def Obligations.OfferedOutputIsStable : Prop :=
  (∀ s : State, s.outValid = true ↔ s.oq ≠ []) ∧
  (∀ (i : Instr) (s t : State) (w : OutBeat), s.outBeat = some w → exec i s = .next t →
    t.outValid = true ∧ t.outBeat = some w)

/-- R110, R81, R244: a step takes the producer's next beat and runs it exactly if `in_ready` shows 1. In the unbounded model
of R29 that is always; in the guarded model of R244 it is when what the beat emits fits, and otherwise `in_ready` shows 0 and
the beat waits. That the port so depends on the beat in the guarded model, which the last sentence of R110 denies, is the
model's choice of log entry 5 (DESIGN CHOICE). That a beat refused uses up its move, and that `withFetchWord` places a beat
to be run so, is the model's choice of log entry 3 (DESIGN CHOICE). -/
def Obligations.StepRunsDecodedBeat : Prop :=
  (∀ (s : State) (w : Beat) (rest : List Beat) (ms : List Move),
    s.moves = .accept :: ms → s.inq = w :: rest → s.flt = false →
      (s.cfg.oqDepth = none → s.inReady = true ∧ step s = exec (decode w) { s with moves := ms, inq := rest }) ∧
      (∀ n t, s.cfg.oqDepth = some n → exec (decode w) { s with moves := ms, inq := rest } = .next t →
        (t.oq.length ≤ n → s.inReady = true ∧ step s = .next t) ∧
        (n < t.oq.length → s.inReady = false ∧ step s = .next { s with moves := ms }))) ∧
  (∀ (s : State) (w : Beat), s.flt = false → s.cfg.oqDepth = none →
    step (s.withFetchWord 12 w.toNat) = exec (decode w) s)

/-- R81: if both channels transfer at one edge, the two steps may be taken in either order. -/
def Obligations.AcceptAndDeliverCommute : Prop :=
  ∀ (i : Instr) (s t : State), s.oq ≠ [] → exec i s = .next t → exec i s.deliver = .next t.deliver

/-- R72: what a beat does, and what it appends to `OQ`, does not depend on what is in `OQ` or was delivered. -/
def Obligations.BeatsOnlyAppendOutput : Prop :=
  ∀ (i : Instr) (s t : State), exec i s = .next t →
    ∃ out : List OutBeat, t.oq = s.oq ++ out ∧
      ∀ (q k : List OutBeat), exec i { s with oq := q, taken := k } = .next { t with oq := q ++ out, taken := k }

/-- R72: two schedules of the same number of offers, with deliveries at any places, give the same output sequence (taken
and waiting together) and the same state, but for how much of the output has been taken. The schedule and `taken` are
those of log entry 3 (DESIGN CHOICE). -/
def Obligations.InterleavingDoesNotMatter : Prop :=
  ∀ (ms ms' : List Move) (s t t' : State), s.cfg.oqDepth = none →
    .reset ∉ ms → .reset ∉ ms' → ms.count .accept = ms'.count .accept →
    Sys2Proof.core.run ms.length { s with moves := ms } = .next t →
    Sys2Proof.core.run ms'.length { s with moves := ms' } = .next t' →
      t.taken ++ t.oq = t'.taken ++ t'.oq ∧ { t with taken := [], oq := [] } = { t' with taken := [], oq := [] }

/-- R32: a closing beat that raises no fault leaves the state between messages. -/
def Obligations.ClosingBeatEndsMessage : Prop :=
  ∀ (i : Instr) (s t : State), s.Inv → s.flt = false → i.lastBit = true → exec i s = .next t → t.flt = false →
    t.BetweenMessages

/-- R26: the stale cells of `GB` are never read. States that agree but for them take the same beat to states that agree
but for stale cells, with the same output. -/
def Obligations.StaleCellsNeverMatter : Prop :=
  ∀ (i : Instr) (s s' t : State), SameButStale s s' → exec i s = .next t →
    ∃ t', exec i s' = .next t' ∧ SameButStale t t'

/-- The frame of all forms: what the host holds, and the parameters, are left alone. These fields are the model's choice of log
entries 2 and 3 (DESIGN CHOICE). -/
def Obligations.FormsLeaveHostSideAlone : Prop :=
  ∀ (i : Instr) (s t : State), exec i s = .next t → SameHost s t

/-- R139 item 7, as a frame: what the ENC forms leave alone, opening or under an open ENC message. -/
def Obligations.EncFrame : Prop :=
  ∀ (i : Instr) (d : Symbol) (s t : State), (i = .encS d ∨ i = .encE d ∨ i = .encSE d) → InForce .enc s →
    exec i s = .next t →
      t.flt = s.flt ∧ t.fcode = s.fcode ∧ t.pr = s.pr ∧ t.gb2 = s.gb2 ∧
      (s.gc ≠ 0#2 ∨ i = .encE d → t.gb0 = s.gb0) ∧ (s.gc ≠ 1#2 ∨ i = .encE d → t.gb1 = s.gb1) ∧ SameHost s t

/-- R165 item 5, as a frame: what the DEC forms leave alone, opening or under an open DEC message. -/
def Obligations.DecFrame : Prop :=
  ∀ (i : Instr) (c : Symbol) (s t : State), (i = .decS c ∨ i = .decE c ∨ i = .decSE c) → InForce .dec s →
    exec i s = .next t →
      t.flt = s.flt ∧ t.fcode = s.fcode ∧ t.pr = s.pr ∧ (s.gc ≠ 0#2 ∨ i = .decE c → t.gb0 = s.gb0) ∧
      (s.gc ≠ 1#2 ∨ i = .decE c → t.gb1 = s.gb1) ∧ (s.gc ≠ 2#2 ∨ i = .decE c → t.gb2 = s.gb2) ∧ SameHost s t

/-- R183, R185, as a frame: what the TRIM forms leave alone, opening or under an open TRIM message; `FLT` and `FCODE`
change only by the overflow of R184. -/
def Obligations.TrimFrame : Prop :=
  ∀ (i : Instr) (c : Symbol) (s t : State), (i = .trimS c ∨ i = .trimE c ∨ i = .trimSE c) → InForce .trim s →
    exec i s = .next t →
      t.gc = s.gc ∧ t.gb0 = s.gb0 ∧ t.gb1 = s.gb1 ∧ t.gb2 = s.gb2 ∧
      (i = .trimE c ∨ c ≠ 0x3D#8 ∨ s.pr ≠ 2 ^ s.cfg.runW - 1 → t.flt = s.flt ∧ t.fcode = s.fcode) ∧ SameHost s t

/-- R25, R117: an open message keeps its operation, and only a closing beat or RESET ends it. -/
def Obligations.OpenMessageEndsOnlyByClosing : Prop :=
  ∀ s t : State, s.busy = true → step s = .next t → s.moves.head? ≠ some .reset →
    t.op = s.op ∧
    (t.busy = false → s.moves.head? = some .accept ∧ ∃ w rest, s.inq = w :: rest ∧ beatLast w = true)

/-- R27: the group count after `n` symbols of a message. -/
def Obligations.GroupCountIsRemainder : Prop :=
  ∀ (s : State) (m : List Symbol), s.flt = false → s.busy = false → s.gc = 0#2 →
    (∃ t, acceptBeats (m.map fun d => encode (.encS d)) s = .next t ∧ t.gc.toNat = m.length % 3) ∧
    (∃ t, acceptBeats (m.map fun c => encode (.decS c)) s = .next t ∧ t.gc.toNat = m.length % 4)

/-- R87: both expansions of R92 spell the message they are written for. -/
def Obligations.SpellingsReadBack : Prop :=
  ∀ (op : BitVec 2) (m : List Symbol), op ≠ 3#2 →
    readMessage (canonicalBeats op m) = some (op, m) ∧ readMessage (splitBeats op m) = some (op, m)

/-- R138: the beats of one ENC message, in any spelling, emit `ENCODE` of its symbols and one `END`. -/
def Obligations.EncMessageEmitsENCODE : Prop :=
  ∀ (s : State) (l : List Beat) (m : List Symbol), s.Inv → s.busy = false → s.flt = false →
    readMessage l = some (0#2, m) →
      ∃ t, acceptBeats l s = .next t ∧ t.oq = s.oq ++ ((encodeMsg m).map symBeat ++ [endBeat]) ∧
        t.busy = false ∧ t.gc = 0#2 ∧ t.flt = false

/-- R161: the beats of one DEC message, in any spelling, emit `DECODE` of its symbols and one `END`. -/
def Obligations.DecMessageEmitsDECODE : Prop :=
  ∀ (s : State) (l : List Beat) (t : List Symbol), s.Inv → s.busy = false → s.flt = false →
    readMessage l = some (1#2, t) →
      ∃ s', acceptBeats l s = .next s' ∧ s'.oq = s.oq ++ ((decodeMsg s.cfg t).map symBeat ++ [endBeat]) ∧
        s'.busy = false ∧ s'.gc = 0#2 ∧ s'.flt = false

/-- R186: the beats of one TRIM message with no run of `=` longer than the counter holds, in any spelling, emit `TRIMPAD`
of its symbols and one `END`. -/
def Obligations.TrimMessageEmitsTRIMPAD : Prop :=
  ∀ (s : State) (l : List Beat) (t : List Symbol), s.Inv → s.busy = false → s.flt = false →
    readMessage l = some (2#2, t) → runsWithin (2 ^ s.cfg.runW - 1) 0 t = true →
      ∃ s', acceptBeats l s = .next s' ∧ s'.oq = s.oq ++ ((trimMsg t).map symBeat ++ [endBeat]) ∧
        s'.busy = false ∧ s'.pr = 0 ∧ s'.flt = false

/-- R163 (a), R181: decoding undoes encoding, with or without the trailing `=`, for every byte sequence and every value of
the arguments. -/
def Obligations.DecodeInvertsEncode : Prop :=
  ∀ (p : Params) (m : List Symbol), decodeMsg p (encodeMsg m) = m ∧ decodeMsg p (trimMsg (encodeMsg m)) = m

/-- R139 items 2 to 4: length, padding and alphabet of an encoding. -/
def Obligations.EncodingShape : Prop :=
  ∀ m : List Symbol,
    (encodeMsg m).length = 4 * ((m.length + 2) / 3) ∧
    trailingPads (encodeMsg m) = (3 - m.length % 3) % 3 ∧
    (encodeMsg m).count 0x3D#8 = (3 - m.length % 3) % 3 ∧
    ∀ c ∈ encodeMsg m, c ≠ 0x3D#8 → ∃ i, fwd i = c

/-- R165 items 2 and 3: the length of a decoding, and that missing padding makes no difference. -/
def Obligations.DecodingShape : Prop :=
  ∀ (p : Params) (t : List Symbol),
    (t.length + 3) / 4 ≤ (decodeMsg p t).length ∧ (decodeMsg p t).length ≤ 3 * ((t.length + 3) / 4) ∧
    decodeMsg p (padText t) = decodeMsg p t

/-- R180: `TRIMPAD` cuts off the whole run of `=` that ends a text, and nothing else. -/
def Obligations.TrimCutsTrailingPads : Prop :=
  ∀ t : List Symbol,
    (∃ r, t = trimMsg t ++ List.replicate r 0x3D#8) ∧ (trimMsg t).getLast? ≠ some 0x3D#8 ∧
    trimMsg (trimMsg t) = trimMsg t

/-- R162: a group shows neither argument when its characters are of the alphabet but for a final `=` or `==`. -/
def Obligations.ArgumentsHiddenInPaddedGroups : Prop :=
  ∀ (p p' : Params) (c0 c1 c2 c3 : Symbol),
    (∃ i, fwd i = c0) → (∃ i, fwd i = c1) → ((∃ i, fwd i = c2) ∨ (c2 = 0x3D#8 ∧ c3 = 0x3D#8)) →
    ((∃ i, fwd i = c3) ∨ c3 = 0x3D#8) → decGroup p c0 c1 c2 c3 = decGroup p' c0 c1 c2 c3

/-- R244: in the guarded model the queue never outgrows its depth. The guarded model is the model's choice of log entry 5
(DESIGN CHOICE). -/
def Obligations.GuardedQueueStaysWithinDepth : Prop :=
  ∀ (s t : State) (n : Nat), s.cfg.oqDepth = some n → s.oq.length ≤ n → step s = .next t → t.oq.length ≤ n
end

