-- ==== Sys2Proof/Laws/Encoding.lean ====
section
/-! SUPPORT. Laying out the fields of a beat and reading them back. -/

namespace Sys2Proof

/-- The four fields of a beat laid out are the fields read back (30_encoding.md R82). -/
theorem packBeat_fields (op : BitVec 2) (l k : Bool) (d : Symbol) :
    beatOp (packBeat op l k d) = op ∧ beatLast (packBeat op l k d) = l ∧ beatKeep (packBeat op l k d) = k ∧
      beatData (packBeat op l k d) = d := by
  refine ⟨?_, ?_, ?_, ?_⟩
  · apply BitVec.eq_of_getLsbD_eq; intro i hi
    interval_cases i <;> simp [beatOp, packBeat]
  · simp [beatLast, packBeat]
  · simp [beatKeep, packBeat]
  · apply BitVec.eq_of_getLsbD_eq; intro i hi
    interval_cases i <;> simp [beatData, packBeat]

/-- A beat is the layout of its own four fields. -/
theorem packBeat_of_fields (w : Beat) : packBeat (beatOp w) (beatLast w) (beatKeep w) (beatData w) = w := by
  apply BitVec.eq_of_getLsbD_eq; intro i hi
  interval_cases i <;> simp [beatOp, beatLast, beatKeep, beatData, packBeat]

end Sys2Proof
end

