-- ==== Sys2Proof/Laws/State.lean ====
section
/-! SUPPORT. One lemma per field and update of the state, so that no proof unfolds a record update. -/

namespace Sys2Proof.Machine

variable (s : State)

@[simp] theorem State.emitSyms_flt (ds : List Symbol) : (s.emitSyms ds).flt = s.flt := rfl
@[simp] theorem State.emitSyms_fcode (ds : List Symbol) : (s.emitSyms ds).fcode = s.fcode := rfl
@[simp] theorem State.emitSyms_busy (ds : List Symbol) : (s.emitSyms ds).busy = s.busy := rfl
@[simp] theorem State.emitSyms_op (ds : List Symbol) : (s.emitSyms ds).op = s.op := rfl
@[simp] theorem State.emitSyms_gb0 (ds : List Symbol) : (s.emitSyms ds).gb0 = s.gb0 := rfl
@[simp] theorem State.emitSyms_gb1 (ds : List Symbol) : (s.emitSyms ds).gb1 = s.gb1 := rfl
@[simp] theorem State.emitSyms_gb2 (ds : List Symbol) : (s.emitSyms ds).gb2 = s.gb2 := rfl
@[simp] theorem State.emitSyms_gc (ds : List Symbol) : (s.emitSyms ds).gc = s.gc := rfl
@[simp] theorem State.emitSyms_pr (ds : List Symbol) : (s.emitSyms ds).pr = s.pr := rfl
@[simp] theorem State.emitSyms_oq (ds : List Symbol) : (s.emitSyms ds).oq = s.oq ++ ds.map symBeat := rfl
@[simp] theorem State.emitSyms_inq (ds : List Symbol) : (s.emitSyms ds).inq = s.inq := rfl
@[simp] theorem State.emitSyms_moves (ds : List Symbol) : (s.emitSyms ds).moves = s.moves := rfl
@[simp] theorem State.emitSyms_taken (ds : List Symbol) : (s.emitSyms ds).taken = s.taken := rfl
@[simp] theorem State.emitSyms_cfg (ds : List Symbol) : (s.emitSyms ds).cfg = s.cfg := rfl

@[simp] theorem State.emitEnd_flt : (s.emitEnd).flt = s.flt := rfl
@[simp] theorem State.emitEnd_fcode : (s.emitEnd).fcode = s.fcode := rfl
@[simp] theorem State.emitEnd_busy : (s.emitEnd).busy = s.busy := rfl
@[simp] theorem State.emitEnd_op : (s.emitEnd).op = s.op := rfl
@[simp] theorem State.emitEnd_gb0 : (s.emitEnd).gb0 = s.gb0 := rfl
@[simp] theorem State.emitEnd_gb1 : (s.emitEnd).gb1 = s.gb1 := rfl
@[simp] theorem State.emitEnd_gb2 : (s.emitEnd).gb2 = s.gb2 := rfl
@[simp] theorem State.emitEnd_gc : (s.emitEnd).gc = s.gc := rfl
@[simp] theorem State.emitEnd_pr : (s.emitEnd).pr = s.pr := rfl
@[simp] theorem State.emitEnd_oq : (s.emitEnd).oq = s.oq ++ [endBeat] := rfl
@[simp] theorem State.emitEnd_inq : (s.emitEnd).inq = s.inq := rfl
@[simp] theorem State.emitEnd_moves : (s.emitEnd).moves = s.moves := rfl
@[simp] theorem State.emitEnd_taken : (s.emitEnd).taken = s.taken := rfl
@[simp] theorem State.emitEnd_cfg : (s.emitEnd).cfg = s.cfg := rfl

@[simp] theorem State.setGc_flt (g : BitVec 2) : (s.setGc g).flt = s.flt := rfl
@[simp] theorem State.setGc_fcode (g : BitVec 2) : (s.setGc g).fcode = s.fcode := rfl
@[simp] theorem State.setGc_busy (g : BitVec 2) : (s.setGc g).busy = s.busy := rfl
@[simp] theorem State.setGc_op (g : BitVec 2) : (s.setGc g).op = s.op := rfl
@[simp] theorem State.setGc_gb0 (g : BitVec 2) : (s.setGc g).gb0 = s.gb0 := rfl
@[simp] theorem State.setGc_gb1 (g : BitVec 2) : (s.setGc g).gb1 = s.gb1 := rfl
@[simp] theorem State.setGc_gb2 (g : BitVec 2) : (s.setGc g).gb2 = s.gb2 := rfl
@[simp] theorem State.setGc_gc (g : BitVec 2) : (s.setGc g).gc = g := rfl
@[simp] theorem State.setGc_pr (g : BitVec 2) : (s.setGc g).pr = s.pr := rfl
@[simp] theorem State.setGc_oq (g : BitVec 2) : (s.setGc g).oq = s.oq := rfl
@[simp] theorem State.setGc_inq (g : BitVec 2) : (s.setGc g).inq = s.inq := rfl
@[simp] theorem State.setGc_moves (g : BitVec 2) : (s.setGc g).moves = s.moves := rfl
@[simp] theorem State.setGc_taken (g : BitVec 2) : (s.setGc g).taken = s.taken := rfl
@[simp] theorem State.setGc_cfg (g : BitVec 2) : (s.setGc g).cfg = s.cfg := rfl

@[simp] theorem State.setPr_flt (n : Nat) : (s.setPr n).flt = s.flt := rfl
@[simp] theorem State.setPr_fcode (n : Nat) : (s.setPr n).fcode = s.fcode := rfl
@[simp] theorem State.setPr_busy (n : Nat) : (s.setPr n).busy = s.busy := rfl
@[simp] theorem State.setPr_op (n : Nat) : (s.setPr n).op = s.op := rfl
@[simp] theorem State.setPr_gb0 (n : Nat) : (s.setPr n).gb0 = s.gb0 := rfl
@[simp] theorem State.setPr_gb1 (n : Nat) : (s.setPr n).gb1 = s.gb1 := rfl
@[simp] theorem State.setPr_gb2 (n : Nat) : (s.setPr n).gb2 = s.gb2 := rfl
@[simp] theorem State.setPr_gc (n : Nat) : (s.setPr n).gc = s.gc := rfl
@[simp] theorem State.setPr_pr (n : Nat) : (s.setPr n).pr = n := rfl
@[simp] theorem State.setPr_oq (n : Nat) : (s.setPr n).oq = s.oq := rfl
@[simp] theorem State.setPr_inq (n : Nat) : (s.setPr n).inq = s.inq := rfl
@[simp] theorem State.setPr_moves (n : Nat) : (s.setPr n).moves = s.moves := rfl
@[simp] theorem State.setPr_taken (n : Nat) : (s.setPr n).taken = s.taken := rfl
@[simp] theorem State.setPr_cfg (n : Nat) : (s.setPr n).cfg = s.cfg := rfl

@[simp] theorem State.setCell_flt (k : BitVec 2) (d : Symbol) : (s.setCell k d).flt = s.flt := rfl
@[simp] theorem State.setCell_fcode (k : BitVec 2) (d : Symbol) : (s.setCell k d).fcode = s.fcode := rfl
@[simp] theorem State.setCell_busy (k : BitVec 2) (d : Symbol) : (s.setCell k d).busy = s.busy := rfl
@[simp] theorem State.setCell_op (k : BitVec 2) (d : Symbol) : (s.setCell k d).op = s.op := rfl
@[simp] theorem State.setCell_gb0 (k : BitVec 2) (d : Symbol) : (s.setCell k d).gb0 = if k = 0#2 then d else s.gb0 := rfl
@[simp] theorem State.setCell_gb1 (k : BitVec 2) (d : Symbol) : (s.setCell k d).gb1 = if k = 1#2 then d else s.gb1 := rfl
@[simp] theorem State.setCell_gb2 (k : BitVec 2) (d : Symbol) : (s.setCell k d).gb2 = if k = 2#2 then d else s.gb2 := rfl
@[simp] theorem State.setCell_gc (k : BitVec 2) (d : Symbol) : (s.setCell k d).gc = s.gc := rfl
@[simp] theorem State.setCell_pr (k : BitVec 2) (d : Symbol) : (s.setCell k d).pr = s.pr := rfl
@[simp] theorem State.setCell_oq (k : BitVec 2) (d : Symbol) : (s.setCell k d).oq = s.oq := rfl
@[simp] theorem State.setCell_inq (k : BitVec 2) (d : Symbol) : (s.setCell k d).inq = s.inq := rfl
@[simp] theorem State.setCell_moves (k : BitVec 2) (d : Symbol) : (s.setCell k d).moves = s.moves := rfl
@[simp] theorem State.setCell_taken (k : BitVec 2) (d : Symbol) : (s.setCell k d).taken = s.taken := rfl
@[simp] theorem State.setCell_cfg (k : BitVec 2) (d : Symbol) : (s.setCell k d).cfg = s.cfg := rfl

@[simp] theorem State.openMsg_flt (o : Op) : (s.openMsg o).flt = s.flt := rfl
@[simp] theorem State.openMsg_fcode (o : Op) : (s.openMsg o).fcode = s.fcode := rfl
@[simp] theorem State.openMsg_busy (o : Op) : (s.openMsg o).busy = true := rfl
@[simp] theorem State.openMsg_op (o : Op) : (s.openMsg o).op = o := rfl
@[simp] theorem State.openMsg_gb0 (o : Op) : (s.openMsg o).gb0 = s.gb0 := rfl
@[simp] theorem State.openMsg_gb1 (o : Op) : (s.openMsg o).gb1 = s.gb1 := rfl
@[simp] theorem State.openMsg_gb2 (o : Op) : (s.openMsg o).gb2 = s.gb2 := rfl
@[simp] theorem State.openMsg_gc (o : Op) : (s.openMsg o).gc = s.gc := rfl
@[simp] theorem State.openMsg_pr (o : Op) : (s.openMsg o).pr = s.pr := rfl
@[simp] theorem State.openMsg_oq (o : Op) : (s.openMsg o).oq = s.oq := rfl
@[simp] theorem State.openMsg_inq (o : Op) : (s.openMsg o).inq = s.inq := rfl
@[simp] theorem State.openMsg_moves (o : Op) : (s.openMsg o).moves = s.moves := rfl
@[simp] theorem State.openMsg_taken (o : Op) : (s.openMsg o).taken = s.taken := rfl
@[simp] theorem State.openMsg_cfg (o : Op) : (s.openMsg o).cfg = s.cfg := rfl

@[simp] theorem State.closeMsg_flt : (s.closeMsg).flt = s.flt := rfl
@[simp] theorem State.closeMsg_fcode : (s.closeMsg).fcode = s.fcode := rfl
@[simp] theorem State.closeMsg_busy : (s.closeMsg).busy = false := rfl
@[simp] theorem State.closeMsg_op : (s.closeMsg).op = s.op := rfl
@[simp] theorem State.closeMsg_gb0 : (s.closeMsg).gb0 = s.gb0 := rfl
@[simp] theorem State.closeMsg_gb1 : (s.closeMsg).gb1 = s.gb1 := rfl
@[simp] theorem State.closeMsg_gb2 : (s.closeMsg).gb2 = s.gb2 := rfl
@[simp] theorem State.closeMsg_gc : (s.closeMsg).gc = s.gc := rfl
@[simp] theorem State.closeMsg_pr : (s.closeMsg).pr = s.pr := rfl
@[simp] theorem State.closeMsg_oq : (s.closeMsg).oq = s.oq := rfl
@[simp] theorem State.closeMsg_inq : (s.closeMsg).inq = s.inq := rfl
@[simp] theorem State.closeMsg_moves : (s.closeMsg).moves = s.moves := rfl
@[simp] theorem State.closeMsg_taken : (s.closeMsg).taken = s.taken := rfl
@[simp] theorem State.closeMsg_cfg : (s.closeMsg).cfg = s.cfg := rfl

@[simp] theorem State.raiseFault_flt (code : BitVec 2) : (s.raiseFault code).flt = true := rfl
@[simp] theorem State.raiseFault_fcode (code : BitVec 2) : (s.raiseFault code).fcode = code := rfl
@[simp] theorem State.raiseFault_busy (code : BitVec 2) : (s.raiseFault code).busy = s.busy := rfl
@[simp] theorem State.raiseFault_op (code : BitVec 2) : (s.raiseFault code).op = s.op := rfl
@[simp] theorem State.raiseFault_gb0 (code : BitVec 2) : (s.raiseFault code).gb0 = s.gb0 := rfl
@[simp] theorem State.raiseFault_gb1 (code : BitVec 2) : (s.raiseFault code).gb1 = s.gb1 := rfl
@[simp] theorem State.raiseFault_gb2 (code : BitVec 2) : (s.raiseFault code).gb2 = s.gb2 := rfl
@[simp] theorem State.raiseFault_gc (code : BitVec 2) : (s.raiseFault code).gc = s.gc := rfl
@[simp] theorem State.raiseFault_pr (code : BitVec 2) : (s.raiseFault code).pr = s.pr := rfl
@[simp] theorem State.raiseFault_oq (code : BitVec 2) : (s.raiseFault code).oq = s.oq := rfl
@[simp] theorem State.raiseFault_inq (code : BitVec 2) : (s.raiseFault code).inq = s.inq := rfl
@[simp] theorem State.raiseFault_moves (code : BitVec 2) : (s.raiseFault code).moves = s.moves := rfl
@[simp] theorem State.raiseFault_taken (code : BitVec 2) : (s.raiseFault code).taken = s.taken := rfl
@[simp] theorem State.raiseFault_cfg (code : BitVec 2) : (s.raiseFault code).cfg = s.cfg := rfl

@[simp] theorem State.resetBlock_flt : (s.resetBlock).flt = false := rfl
@[simp] theorem State.resetBlock_fcode : (s.resetBlock).fcode = 0#2 := rfl
@[simp] theorem State.resetBlock_busy : (s.resetBlock).busy = false := rfl
@[simp] theorem State.resetBlock_op : (s.resetBlock).op = .enc := rfl
@[simp] theorem State.resetBlock_gb0 : (s.resetBlock).gb0 = 0#8 := rfl
@[simp] theorem State.resetBlock_gb1 : (s.resetBlock).gb1 = 0#8 := rfl
@[simp] theorem State.resetBlock_gb2 : (s.resetBlock).gb2 = 0#8 := rfl
@[simp] theorem State.resetBlock_gc : (s.resetBlock).gc = 0#2 := rfl
@[simp] theorem State.resetBlock_pr : (s.resetBlock).pr = 0 := rfl
@[simp] theorem State.resetBlock_oq : (s.resetBlock).oq = [] := rfl
@[simp] theorem State.resetBlock_inq : (s.resetBlock).inq = s.inq := rfl
@[simp] theorem State.resetBlock_moves : (s.resetBlock).moves = s.moves := rfl
@[simp] theorem State.resetBlock_taken : (s.resetBlock).taken = s.taken := rfl
@[simp] theorem State.resetBlock_cfg : (s.resetBlock).cfg = s.cfg := rfl

end Sys2Proof.Machine
end

