-- ==== Sys2Proof/Laws/Ops.lean ====
section
/-! SUPPORT. What each shared operation can do, said once: one lemma per operation, cited instead of unfolding it. -/

namespace Sys2Proof.Machine

/-- Two bits hold one of four values. -/
theorem bits2_cases (g : BitVec 2) : g = 0#2 ∨ g = 1#2 ∨ g = 2#2 ∨ g = 3#2 := by
  revert g; decide

/-- Every form is ACCEPT of its own fields (40_framing.md R110). -/
theorem exec_eq_accept (i : Instr) (s : State) :
    exec i s = accept i.opBits i.lastBit i.keepBit i.dataBits s := by
  cases i <;> rfl

/-- Decoding gives back the four fields of the beat. -/
theorem decode_fields (w : Beat) :
    (decode w).opBits = beatOp w ∧ (decode w).lastBit = beatLast w ∧ (decode w).keepBit = beatKeep w ∧
      (decode w).dataBits = beatData w := by
  unfold decode byOp
  rcases bits2_cases (beatOp w) with h | h | h | h <;> rw [h] <;>
    cases beatLast w <;> cases beatKeep w <;> simp [Instr.opBits, Instr.lastBit, Instr.keepBit, Instr.dataBits]

/-- A decoded beat is ACCEPT of the beat's fields (40_framing.md R110, 30_encoding.md R82). -/
theorem exec_decode (w : Beat) (s : State) :
    exec (decode w) s = accept (beatOp w) (beatLast w) (beatKeep w) (beatData w) s := by
  obtain ⟨h1, h2, h3, h4⟩ := decode_fields w
  rw [exec_eq_accept, h1, h2, h3, h4]

/-- The four codes of the `op` field (30_encoding.md R85). -/
theorem ofCode_eq_some {code : BitVec 2} {o : Op} : Op.ofCode code = some o ↔ code = o.code := by
  rcases bits2_cases code with h | h | h | h <;> subst h <;> cases o <;> decide

theorem ofCode_eq_none {code : BitVec 2} : Op.ofCode code = none ↔ code = 3#2 := by
  rcases bits2_cases code with h | h | h | h <;> subst h <;> decide

theorem ofCode_code (o : Op) : Op.ofCode o.code = some o := by cases o <;> rfl

/-- The opening part changes nothing under an open message, and opens one otherwise (R112). -/
theorem opening_eq_some {code : BitVec 2} {s t : State} (h : opening code s = some t) :
    (s.busy = true ∧ t = s) ∨ (s.busy = false ∧ ∃ o, code = Op.code o ∧ t = s.openMsg o) := by
  unfold opening at h
  split at h
  · exact .inl ⟨‹_›, by simpa using h.symm⟩
  · split at h
    · rename_i hb _ o ho
      exact .inr ⟨by simpa using hb, o, ofCode_eq_some.mp ho, by simpa using h.symm⟩
    · cases h

/-- No state answers only for the reserved code on an opening beat (R113). -/
theorem opening_eq_none {code : BitVec 2} {s : State} : opening code s = none ↔ s.busy = false ∧ code = 3#2 := by
  unfold opening
  cases hb : s.busy <;> simp
  rw [← ofCode_eq_none]
  cases Op.ofCode code <;> simp

theorem opening_busy {code : BitVec 2} {s : State} (h : s.busy = true) : opening code s = some s := by
  simp [opening, h]

theorem opening_idle {s : State} (o : Op) (h : s.busy = false) : opening o.code s = some (s.openMsg o) := by
  simp [opening, h, ofCode_code]

/-- Storing a symbol fills cell `GC`, if there is one. -/
theorem store_cases (d : Symbol) (s : State) :
    (s.gc ≠ 3#2 ∧ store d s = .done ((s.setCell s.gc d).setGc (s.gc + 1#2))) ∨
    (s.gc = 3#2 ∧ store d s = .stopped .noGroupCell) := by
  by_cases h : s.gc = 3#2 <;> simp [store, State.storeSymbol, h]

/-- `ENC_S` completes a group, stores the byte, or stops where no cell is left (41_encode.md R134). -/
theorem encTake_cases (d : Symbol) (s : State) :
    (s.gc = 2#2 ∧ encTake d s = .done ((s.emitSyms (encGroup s.gb0 s.gb1 d .zero)).setGc 0#2)) ∨
    (s.gc ≠ 2#2 ∧ s.gc ≠ 3#2 ∧ encTake d s = .done ((s.setCell s.gc d).setGc (s.gc + 1#2))) ∨
    (s.gc = 3#2 ∧ encTake d s = .stopped .noGroupCell) := by
  by_cases h : s.gc = 2#2
  · simp [encTake, h]
  · rcases store_cases d s with ⟨h3, hs⟩ | ⟨h3, hs⟩ <;> simp [encTake, h, h3, hs]

/-- `DEC_S` completes a group or stores the character (42_decode.md R158). -/
theorem decTake_cases (c : Symbol) (s : State) :
    (s.gc = 3#2 ∧ decTake c s = .done ((s.emitSyms (decGroup s.cfg s.gb0 s.gb1 s.gb2 c)).setGc 0#2)) ∨
    (s.gc ≠ 3#2 ∧ decTake c s = .done ((s.setCell s.gc c).setGc (s.gc + 1#2))) := by
  by_cases h : s.gc = 3#2
  · simp [decTake, h]
  · rcases store_cases c s with ⟨h3, hs⟩ | ⟨h3, hs⟩
    · simp [decTake, h, hs]
    · exact absurd h3 h

/-- `TRIM_S` holds an `=` back, overflows, or replays the held run before another character (43_trimpadding.md R183). -/
theorem trimTake_cases (c : Symbol) (s : State) :
    (c = padChar ∧ s.pr = s.cfg.runMax ∧ trimTake c s = .raised runovfCode) ∨
    (c = padChar ∧ s.pr ≠ s.cfg.runMax ∧ trimTake c s = .done (s.setPr (s.pr + 1))) ∨
    (c ≠ padChar ∧ trimTake c s = .done ((s.emitSyms (List.replicate s.pr padChar ++ [c])).setPr 0)) := by
  by_cases h : c = padChar
  · by_cases hp : s.pr = s.cfg.runMax <;> simp [trimTake, h, hp]
  · simp [trimTake, h]

/-- The symbol goes to the operation in force (40_framing.md R114). -/
theorem symbolPart_enc {s : State} (d : Symbol) (h : s.op = .enc) : symbolPart true d s = encTake d s := by
  simp [symbolPart, h]

theorem symbolPart_dec {s : State} (d : Symbol) (h : s.op = .dec) : symbolPart true d s = decTake d s := by
  simp [symbolPart, h]

theorem symbolPart_trim {s : State} (d : Symbol) (h : s.op = .trim) : symbolPart true d s = trimTake d s := by
  simp [symbolPart, h]

/-- A bare E beat has no symbol part. -/
theorem symbolPart_none (d : Symbol) (s : State) : symbolPart false d s = .done s := by
  simp [symbolPart]

/-- A symbol taken leaves the status, the message and the host side alone, and only adds to `OQ`. -/
theorem symbolPart_done {keep : Bool} {d : Symbol} {s t : State} (h : symbolPart keep d s = .done t) :
    t.flt = s.flt ∧ t.fcode = s.fcode ∧ t.busy = s.busy ∧ t.op = s.op ∧ t.inq = s.inq ∧ t.moves = s.moves ∧
      t.taken = s.taken ∧ t.cfg = s.cfg ∧ ∃ ds : List Symbol, t.oq = s.oq ++ ds.map symBeat := by
  cases keep
  · simp only [symbolPart, Bool.false_eq_true, if_false, SymbolResult.done.injEq] at h
    subst h
    exact ⟨rfl, rfl, rfl, rfl, rfl, rfl, rfl, rfl, [], by simp⟩
  · cases ho : s.op
    · rw [symbolPart_enc d ho] at h
      rcases encTake_cases d s with ⟨_, hs⟩ | ⟨_, _, hs⟩ | ⟨_, hs⟩ <;> rw [hs] at h <;> cases h
      · exact ⟨rfl, rfl, rfl, ho, rfl, rfl, rfl, rfl, _, rfl⟩
      · exact ⟨rfl, rfl, rfl, ho, rfl, rfl, rfl, rfl, [], by simp⟩
    · rw [symbolPart_dec d ho] at h
      rcases decTake_cases d s with ⟨_, hs⟩ | ⟨_, hs⟩ <;> rw [hs] at h <;> cases h
      · exact ⟨rfl, rfl, rfl, ho, rfl, rfl, rfl, rfl, _, rfl⟩
      · exact ⟨rfl, rfl, rfl, ho, rfl, rfl, rfl, rfl, [], by simp⟩
    · rw [symbolPart_trim d ho] at h
      rcases trimTake_cases d s with ⟨_, _, hs⟩ | ⟨_, _, hs⟩ | ⟨_, hs⟩ <;> rw [hs] at h <;> cases h
      · exact ⟨rfl, rfl, rfl, ho, rfl, rfl, rfl, rfl, [], by simp⟩
      · exact ⟨rfl, rfl, rfl, ho, rfl, rfl, rfl, rfl, _, rfl⟩

/-- The symbol part raises only the run overflow, in a TRIM message (43_trimpadding.md R184). -/
theorem symbolPart_raised {keep : Bool} {d : Symbol} {s : State} {c : BitVec 2} (h : symbolPart keep d s = .raised c) :
    keep = true ∧ s.op = .trim ∧ d = padChar ∧ s.pr = s.cfg.runMax ∧ c = runovfCode := by
  cases keep
  · simp [symbolPart] at h
  · cases ho : s.op
    · rw [symbolPart_enc d ho] at h
      rcases encTake_cases d s with ⟨_, hs⟩ | ⟨_, _, hs⟩ | ⟨_, hs⟩ <;> rw [hs] at h <;> cases h
    · rw [symbolPart_dec d ho] at h
      rcases decTake_cases d s with ⟨_, hs⟩ | ⟨_, hs⟩ <;> rw [hs] at h <;> cases h
    · rw [symbolPart_trim d ho] at h
      rcases trimTake_cases d s with ⟨hd, hp, hs⟩ | ⟨_, _, hs⟩ | ⟨_, hs⟩ <;> rw [hs] at h <;> cases h
      exact ⟨rfl, rfl, hd, hp, rfl⟩

/-- The symbol part stops only where an ENC message has no cell left (log entry 6). -/
theorem symbolPart_stopped {keep : Bool} {d : Symbol} {s : State} {f : Fault} (h : symbolPart keep d s = .stopped f) :
    keep = true ∧ s.op = .enc ∧ s.gc = 3#2 := by
  cases keep
  · simp [symbolPart] at h
  · cases ho : s.op
    · rw [symbolPart_enc d ho] at h
      rcases encTake_cases d s with ⟨_, hs⟩ | ⟨_, _, hs⟩ | ⟨h3, hs⟩ <;> rw [hs] at h <;> cases h
      exact ⟨rfl, rfl, h3⟩
    · rw [symbolPart_dec d ho] at h
      rcases decTake_cases d s with ⟨_, hs⟩ | ⟨_, hs⟩ <;> rw [hs] at h <;> cases h
    · rw [symbolPart_trim d ho] at h
      rcases trimTake_cases d s with ⟨_, _, hs⟩ | ⟨_, _, hs⟩ | ⟨_, hs⟩ <;> rw [hs] at h <;> cases h

/-- The state with nothing emitted. -/
theorem emitSyms_nil (s : State) : s.emitSyms [] = s := by
  simp [State.emitSyms]

/-- `ENC_E` emits what the partial group owes and empties the count (41_encode.md R136). -/
theorem encClose_spec (s : State) : ∃ ds : List Symbol, encClose s = (s.emitSyms ds).setGc 0#2 := by
  unfold encClose
  split
  · exact ⟨_, rfl⟩
  · split
    · exact ⟨_, rfl⟩
    · exact ⟨[], by rw [emitSyms_nil]⟩

/-- `DEC_E` emits what the partial group owes and empties the count (42_decode.md R160). -/
theorem decClose_spec (s : State) : ∃ ds : List Symbol, decClose s = (s.emitSyms ds).setGc 0#2 := by
  unfold decClose
  split
  · exact ⟨_, rfl⟩
  · split
    · exact ⟨_, rfl⟩
    · split
      · exact ⟨_, rfl⟩
      · exact ⟨[], by rw [emitSyms_nil]⟩

/-- Everything a closing rule can do: the counts of its own operation are emptied, and only `OQ` grows (R116). -/
theorem closeGroup_cases (s : State) :
    (s.op ≠ .trim ∧ ∃ ds : List Symbol, closeGroup s = (s.emitSyms ds).setGc 0#2) ∨
    (s.op = .trim ∧ closeGroup s = s.setPr 0) := by
  cases ho : s.op
  · exact .inl ⟨by simp, by simpa [closeGroup, ho] using encClose_spec s⟩
  · exact .inl ⟨by simp, by simpa [closeGroup, ho] using decClose_spec s⟩
  · exact .inr ⟨rfl, by simp [closeGroup, ho, trimClose]⟩

/-- The closing part leaves the status, `OP`, the cells and the host side alone; `BUSY` falls if the beat closes. -/
theorem closingPart_fields (last : Bool) (s : State) :
    (closingPart last s).flt = s.flt ∧ (closingPart last s).fcode = s.fcode ∧ (closingPart last s).op = s.op ∧
      (closingPart last s).gb0 = s.gb0 ∧ (closingPart last s).gb1 = s.gb1 ∧ (closingPart last s).gb2 = s.gb2 ∧
      (closingPart last s).inq = s.inq ∧ (closingPart last s).moves = s.moves ∧
      (closingPart last s).taken = s.taken ∧ (closingPart last s).cfg = s.cfg ∧
      (closingPart last s).busy = (!last && s.busy) := by
  cases last
  · simp [closingPart]
  · rcases closeGroup_cases s with ⟨_, ds, h⟩ | ⟨_, h⟩ <;> simp [closingPart, h]

/-- Everything ACCEPT can do when it answers a next state (40_framing.md R110). -/
theorem accept_cases {code : BitVec 2} {last keep : Bool} {d : Symbol} {s t : State}
    (h : accept code last keep d s = .next t) :
    (s.flt = true ∧ t = s) ∨
    (s.flt = false ∧ last = false ∧ keep = false ∧ t = s) ∨
    (s.flt = false ∧ (last = true ∨ keep = true) ∧ s.busy = false ∧ code = 3#2 ∧ t = s.raiseFault rsvopCode) ∨
    (s.flt = false ∧ (last = true ∨ keep = true) ∧ ∃ s1, opening code s = some s1 ∧
      ((∃ c, symbolPart keep d s1 = .raised c ∧ t = s.raiseFault c) ∨
       (∃ s2, symbolPart keep d s1 = .done s2 ∧ t = closingPart last s2))) := by
  unfold accept at h
  split at h
  · rename_i hf
    exact .inl ⟨hf, by cases h; rfl⟩
  · rename_i hf
    have hf : s.flt = false := by simpa using hf
    split at h
    · rename_i hb
      simp only [Bool.and_eq_true, Bool.not_eq_true'] at hb
      exact .inr (.inl ⟨hf, hb.1, hb.2, by cases h; rfl⟩)
    · rename_i hb
      have hb : last = true ∨ keep = true := by
        cases last <;> cases keep <;> simp_all
      split at h
      · rename_i ho
        obtain ⟨h1, h2⟩ := opening_eq_none.mp ho
        exact .inr (.inr (.inl ⟨hf, hb, h1, h2, by cases h; rfl⟩))
      · rename_i s1 ho
        refine .inr (.inr (.inr ⟨hf, hb, s1, ho, ?_⟩))
        split at h
        · rename_i s2 hs
          exact .inr ⟨s2, hs, by cases h; rfl⟩
        · rename_i c hs
          exact .inl ⟨c, hs, by cases h; rfl⟩
        · cases h

/-- ACCEPT never refuses, and stops only in the symbol part. -/
theorem accept_stops {code : BitVec 2} {last keep : Bool} {d : Symbol} {s : State} :
    (∀ r, accept code last keep d s ≠ .refused r) ∧
    (∀ f, accept code last keep d s = .fault f → s.flt = false ∧ ∃ s1, opening code s = some s1 ∧
      symbolPart keep d s1 = .stopped f) := by
  unfold accept
  split
  · simp
  · rename_i hf
    split
    · simp
    · split
      · simp
      · rename_i s1 ho
        split
        · simp
        · simp
        · rename_i f hs
          refine ⟨by simp, fun f' hf' => ?_⟩
          cases hf'
          exact ⟨by simpa using hf, s1, ho, hs⟩

/-- The opening part does not look at the schedule. -/
theorem opening_setMoves (code : BitVec 2) (s : State) (ms : List Move) :
    opening code { s with moves := ms } = (opening code s).map fun t => { t with moves := ms } := by
  cases hb : s.busy
  · simp only [opening, hb]
    cases Op.ofCode code <;> rfl
  · simp [opening, hb]

/-- The symbol part does not look at the schedule. -/
theorem symbolPart_setMoves (keep : Bool) (d : Symbol) (s : State) (ms : List Move) :
    symbolPart keep d { s with moves := ms } = match symbolPart keep d s with
      | .done t => .done { t with moves := ms }
      | .raised c => .raised c
      | .stopped f => .stopped f := by
  obtain ⟨_, _, _, o, _, _, _, g, p, _, _, _, _, c⟩ := s
  cases keep
  · rfl
  cases o
  · rcases bits2_cases g with rfl | rfl | rfl | rfl <;> rfl
  · rcases bits2_cases g with rfl | rfl | rfl | rfl <;> rfl
  · by_cases h : d = padChar
    · by_cases hp : p = c.runMax <;> simp [symbolPart, trimTake, h, hp, State.setPr]
    · simp [symbolPart, trimTake, h, State.setPr, State.emitSyms]

/-- The closing part does not look at the schedule. -/
theorem closingPart_setMoves (last : Bool) (s : State) (ms : List Move) :
    closingPart last { s with moves := ms } = { closingPart last s with moves := ms } := by
  obtain ⟨_, _, _, o, _, _, _, g, _, _, _, _, _, _⟩ := s
  cases last
  · rfl
  cases o <;> rcases bits2_cases g with rfl | rfl | rfl | rfl <;> rfl

/-- ACCEPT does not look at the schedule. -/
theorem accept_setMoves (code : BitVec 2) (last keep : Bool) (d : Symbol) (s : State) (ms : List Move) :
    accept code last keep d { s with moves := ms } = match accept code last keep d s with
      | .next t => .next { t with moves := ms }
      | .fault f => .fault f
      | .refused r => .refused r := by
  unfold accept
  rw [opening_setMoves]
  cases hf : s.flt
  · cases hb : (!last && !keep)
    · cases opening code s with
      | none => rfl
      | some s1 =>
        simp only [Option.map_some, symbolPart_setMoves]
        cases symbolPart keep d s1 <;> simp [closingPart_setMoves, State.raiseFault]
    · simp [hf]
  · simp [hf]

/-- Whether the offered beat fits does not depend on the schedule. -/
@[simp] theorem State.roomForNext_setMoves (s : State) (ms : List Move) :
    ({ s with moves := ms } : State).roomForNext = s.roomForNext := by
  unfold State.roomForNext State.fetch
  cases s.inq with
  | nil => rfl
  | cons w rest =>
    simp only [exec_decode]
    rw [accept_setMoves _ _ _ _ ({ s with inq := rest } : State) ms]
    cases accept (beatOp w) (beatLast w) (beatKeep w) (beatData w) { s with inq := rest } <;> rfl

/-- The port `in_ready` does not depend on the schedule. -/
@[simp] theorem State.inReady_setMoves (s : State) (ms : List Move) :
    ({ s with moves := ms } : State).inReady = s.inReady := by
  simp [State.inReady]

/-- A faulted block shows `in_ready = 0` (60_exceptions.md R203). -/
theorem inReady_faulted {s : State} (h : s.flt = true) : s.inReady = false := by
  simp [State.inReady, h]

/-- What `in_ready` shows a producer that offers a beat: the block has not faulted, and the beat's output has room
(40_framing.md R110, 70_reset_and_hazards.md R244). -/
theorem inReady_offered {s t : State} {w : Beat} {rest : List Beat} (hq : s.inq = w :: rest)
    (hx : exec (decode w) { s with inq := rest } = .next t) : s.inReady = (!s.flt && t.hasRoom) := by
  simp [State.inReady, State.roomForNext, State.fetch, hq, hx]

/-- An offer transfers the beat exactly if `in_ready` shows 1 (30_encoding.md R81). -/
theorem offer_cons {s : State} {w : Beat} {rest : List Beat} (hq : s.inq = w :: rest) :
    offer s = if s.inReady then exec (decode w) { s with inq := rest } else .next s := by
  simp [offer, State.fetch, hq]

/-- While `in_ready` shows 0, an offer changes nothing. -/
theorem offer_waits {s : State} (h : s.inReady = false) : offer s = .next s := by
  unfold offer
  split <;> simp [h]

/-- The hazard of 70_reset_and_hazards.md R244: a host that only feeds, and takes no output, finds `in_ready = 0` for ever
once the beat it offers has no room. However often it offers the beat, the block, its port and the beat stay as they are. -/
theorem waits_for_ever {s : State} (h : s.inReady = false) (k : Nat) :
    Sys2Proof.core.run k { s with moves := List.replicate k .accept } = .next { s with moves := [] } := by
  induction k with
  | zero => rfl
  | succ k ih =>
    have hs : Sys2Proof.core.step { s with moves := List.replicate (k + 1) .accept } =
        .next { s with moves := List.replicate k .accept } :=
      offer_waits (s := { s with moves := List.replicate k .accept }) (by simpa using h)
    simp only [Host.Core.run, hs]
    exact ih

/-- Everything a step can do (00_scope.md R18). -/
theorem step_cases {s t : State} (h : step s = .next t) :
    (s.moves = [] ∧ t = s) ∨
    (∃ ms, s.moves = .reset :: ms ∧ t = { s with moves := ms }.resetBlock) ∨
    (∃ ms, s.moves = .deliver :: ms ∧ t = { s with moves := ms }.deliver) ∨
    (∃ ms, s.moves = .accept :: ms ∧ t = { s with moves := ms }) ∨
    (∃ ms w rest, s.moves = .accept :: ms ∧ s.inq = w :: rest ∧ s.flt = false ∧
      exec (decode w) { s with moves := ms, inq := rest } = .next t ∧ t.hasRoom = true) := by
  unfold step at h
  split at h
  · exact .inl ⟨‹_›, by cases h; rfl⟩
  · rename_i m ms hm
    cases m <;> simp only [runMove] at h
    · cases hr : ({ s with moves := ms } : State).inReady
      · rw [offer_waits hr] at h
        exact .inr (.inr (.inr (.inl ⟨ms, hm, by cases h; rfl⟩)))
      · cases hq : s.inq with
        | nil =>
          simp only [offer, State.fetch, hq] at h
          exact .inr (.inr (.inr (.inl ⟨ms, hm, by cases h; simp⟩)))
        | cons w rest =>
          rw [offer_cons (s := { s with moves := ms }) hq, if_pos hr] at h
          rw [inReady_offered (s := { s with moves := ms }) hq h] at hr
          simp only [Bool.and_eq_true, Bool.not_eq_true'] at hr
          exact .inr (.inr (.inr (.inr ⟨ms, w, rest, hm, rfl, hr.1, h, hr.2⟩)))
    · exact .inr (.inr (.inl ⟨ms, hm, by cases h; rfl⟩))
    · exact .inr (.inl ⟨ms, hm, by cases h; rfl⟩)

/-- DELIVER with a beat waiting (20_memory.md R70). -/
theorem deliver_cons {s : State} {w : OutBeat} {rest : List OutBeat} (h : s.oq = w :: rest) :
    s.deliver = { s with oq := rest, taken := s.taken ++ [w] } := by
  simp [State.deliver, h]

/-- DELIVER with nothing waiting. -/
theorem deliver_nil {s : State} (h : s.oq = []) : s.deliver = s := by
  simp [State.deliver, h]

end Sys2Proof.Machine
end

