-- ==== Sys2Proof/Machine/Fairness.lean ====
section
/-! DEFINITION. The liveness the block promises (70_reset_and_hazards.md R245): when ACCEPT and DELIVER are enabled, and
infinite executions in which both are weakly fair. -/

namespace Sys2Proof.Machine

/-- ACCEPT is enabled (40_framing.md R110): the producer offers a beat and the port `in_ready` shows 1. -/
def State.acceptEnabled (s : State) : Bool := s.inReady && !s.inq.isEmpty

/-- The block's side of DELIVER is enabled (20_memory.md R70): a beat waits in `OQ`. It does not look at the input side, so
that a beat is offered without any further input (R245). -/
def State.deliverEnabled (s : State) : Bool := s.outValid

/-- An infinite execution: the state before each step, the move made there, and the beats the producer adds to its list
after it. It is about the machine and no part of its state. -/
structure Execution where
  state : Nat → State
  move : Nat → Move
  arriving : Nat → List Beat

/-- Every step of the execution is a step of the machine, to which the producer may add beats to offer later. -/
def Execution.Follows (e : Execution) : Prop :=
  ∀ n, ∃ t, runMove (e.move n) (e.state n) = .next t ∧ e.state (n + 1) = { t with inq := t.inq ++ e.arriving n }

/-- Weak fairness: what is enabled from some point on without a break happens at or after that point. -/
def WeaklyFair (enabled happens : Nat → Prop) : Prop :=
  ∀ n, (∀ k, n ≤ k → enabled k) → ∃ k, n ≤ k ∧ happens k

/-- ACCEPT is weakly fair (R245): an offered beat that stays acceptable is not passed over for ever. -/
def Execution.AcceptFair (e : Execution) : Prop :=
  WeaklyFair (fun k => (e.state k).acceptEnabled = true) (fun k => e.move k = .accept)

/-- DELIVER is weakly fair (R245): the consumer takes a beat that stays offered within finite time. -/
def Execution.DeliverFair (e : Execution) : Prop :=
  WeaklyFair (fun k => (e.state k).deliverEnabled = true) (fun k => e.move k = .deliver)

/-- A live execution (R245): steps of the machine, with ACCEPT and DELIVER weakly fair. -/
structure Execution.Live (e : Execution) : Prop where
  follows : e.Follows
  acceptFair : e.AcceptFair
  deliverFair : e.DeliverFair

/-- `rst = 0` from step `n` on (R245). -/
def Execution.NoResetFrom (e : Execution) (n : Nat) : Prop := ∀ k, n ≤ k → e.move k ≠ .reset

/-- `FLT = 0` from step `n` on (R245). -/
def Execution.NoFaultFrom (e : Execution) (n : Nat) : Prop := ∀ k, n ≤ k → (e.state k).flt = false

/-- At every step from `n` on, what the offered beat would emit fits in an emptied `OQ`. So it is in the unbounded model;
in the guarded model it rules out a beat that could never be taken, such as one that emits five beats at depth 4. -/
def Execution.FitsFrom (e : Execution) (n : Nat) : Prop :=
  ∀ k, n ≤ k → ({ e.state k with oq := [] } : State).roomForNext = true

end Sys2Proof.Machine
end

