-- ==== Sys2Proof/Laws/Fairness.lean ====
section
/-! SUPPORT. The promise of 70_reset_and_hazards.md R245, from weak fairness: every offered input beat is accepted and
every emitted beat is delivered. -/

namespace Sys2Proof.Machine

/-- What ACCEPT does to the two channels: it takes nothing from them itself, and only adds to `OQ`. -/
theorem accept_channels {code : BitVec 2} {last keep : Bool} {d : Symbol} {s t : State}
    (h : accept code last keep d s = .next t) :
    t.inq = s.inq ∧ t.taken = s.taken ∧ t.cfg = s.cfg ∧ ∃ out, t.oq = s.oq ++ out := by
  rcases accept_cases h with ⟨_, rfl⟩ | ⟨_, _, _, rfl⟩ | ⟨_, _, _, _, rfl⟩ | ⟨_, _, s1, ho, h'⟩
  · exact ⟨rfl, rfl, rfl, [], by simp⟩
  · exact ⟨rfl, rfl, rfl, [], by simp⟩
  · exact ⟨rfl, rfl, rfl, [], by simp⟩
  · have hopen : s1.inq = s.inq ∧ s1.taken = s.taken ∧ s1.cfg = s.cfg ∧ s1.oq = s.oq := by
      rcases opening_eq_some ho with ⟨_, rfl⟩ | ⟨_, o, _, rfl⟩ <;> exact ⟨rfl, rfl, rfl, rfl⟩
    obtain ⟨g1, g2, g3, g4⟩ := hopen
    rcases h' with ⟨c, _, rfl⟩ | ⟨s2, hs, rfl⟩
    · exact ⟨rfl, rfl, rfl, [], by simp⟩
    · obtain ⟨_, _, _, _, e1, _, e2, e3, ds, e4⟩ := symbolPart_done hs
      obtain ⟨_, _, _, _, _, _, f1, _, f2, f3, _⟩ := closingPart_fields last s2
      refine ⟨by rw [f1, e1, g1], by rw [f2, e2, g2], by rw [f3, e3, g3], ?_⟩
      cases last
      · exact ⟨ds.map symBeat, by rw [← g4]; exact e4⟩
      · rcases closeGroup_cases s2 with ⟨_, cs, hc⟩ | ⟨_, hc⟩
        · exact ⟨ds.map symBeat ++ cs.map symBeat ++ [endBeat], by simp [closingPart, hc, e4, g4]⟩
        · exact ⟨ds.map symBeat ++ [endBeat], by simp [closingPart, hc, e4, g4]⟩

/-- With the schedule reduced to one move, a step is that move. -/
theorem step_next_move (m : Move) (s : State) (h : s.moves = []) : step { s with moves := [m] } = runMove m s := by
  cases s; subst h; rfl

/-- An offer takes the next beat exactly when ACCEPT is enabled. -/
theorem offer_enabled {s t : State} (he : s.acceptEnabled = true) (h : offer s = .next t) :
    ∃ w rest, s.inq = w :: rest ∧ exec (decode w) { s with inq := rest } = .next t := by
  simp only [State.acceptEnabled, Bool.and_eq_true] at he
  cases hi : s.inq with
  | nil => simp [hi] at he
  | cons w rest => exact ⟨w, rest, rfl, by rwa [offer_cons hi, if_pos he.1] at h⟩

/-- Otherwise the beat waits and nothing changes. -/
theorem offer_disabled {s t : State} (he : s.acceptEnabled = false) (h : offer s = .next t) : t = s := by
  cases hi : s.inq with
  | nil => simp only [offer, State.fetch, hi] at h; cases h; rfl
  | cons w rest =>
    rw [offer_waits (by simpa [State.acceptEnabled, hi] using he)] at h
    cases h; rfl

/-- In the unbounded model there is always room (10_state.md R29). -/
theorem roomForNext_unbounded {s : State} (h : s.cfg.oqDepth = none) : s.roomForNext = true := by
  unfold State.roomForNext
  cases hi : s.inq with
  | nil => simp [State.fetch, hi]
  | cons w rest =>
    simp only [State.fetch, hi]
    cases hx : exec (decode w) { s with inq := rest } with
    | next t =>
      rw [exec_decode] at hx
      have hc : t.cfg = s.cfg := (accept_channels hx).2.2.1
      simp [State.hasRoom, hc, h]
    | fault f => rfl
    | refused r => rfl

/-- In the unbounded model `in_ready` depends on `FLT` alone: not on `in_valid`, not on the beat (R110). -/
theorem inReady_unbounded {s : State} (h : s.cfg.oqDepth = none) : s.inReady = !s.flt := by
  simp [State.inReady, roomForNext_unbounded h]

/-- A delivery shortens `OQ` by its head and leaves the input side alone. -/
theorem deliver_channels (s : State) :
    s.deliver.oq = s.oq.tail ∧ s.deliver.taken = s.taken ++ s.oq.take 1 ∧ s.deliver.inq = s.inq ∧
      s.deliver.cfg = s.cfg := by
  cases h : s.oq with
  | nil => rw [deliver_nil h]; simp [h]
  | cons w rest => rw [deliver_cons h]; simp

variable {e : Execution} {n : Nat}

/-- One step of an execution at which ACCEPT takes a beat. -/
theorem Execution.accept_step (hf : e.Follows) (hm : e.move n = .accept) (he : (e.state n).acceptEnabled = true) :
    ∃ w rest t, (e.state n).inq = w :: rest ∧ exec (decode w) { e.state n with inq := rest } = .next t ∧
      e.state (n + 1) = { t with inq := rest ++ e.arriving n } := by
  obtain ⟨t, ht, hs⟩ := hf n
  rw [hm] at ht
  obtain ⟨w, rest, hi, hx⟩ := offer_enabled he ht
  have hq : t.inq = rest := by rw [exec_decode] at hx; exact (accept_channels hx).1
  exact ⟨w, rest, t, hi, hx, by rw [hs, hq]⟩

/-- One step of an execution that is no RESET and takes no beat: the producer's beats stay, and `OQ` loses its head or
nothing. -/
theorem Execution.idle_step (hf : e.Follows) (hr : e.move n ≠ .reset)
    (ha : e.move n = .accept → (e.state n).acceptEnabled = false) :
    (e.state (n + 1)).inq = (e.state n).inq ++ e.arriving n ∧
      ((e.state (n + 1)).oq = (e.state n).oq ∨ (e.state (n + 1)).oq = (e.state n).oq.tail) := by
  obtain ⟨t, ht, hs⟩ := hf n
  cases hm : e.move n with
  | accept =>
    rw [hm] at ht
    have : t = e.state n := offer_disabled (ha hm) ht
    rw [hs, this]; exact ⟨rfl, .inl rfl⟩
  | deliver =>
    rw [hm] at ht; cases ht
    obtain ⟨h1, _, h3, _⟩ := deliver_channels (e.state n)
    rw [hs]; exact ⟨by simp [h3], .inr h1⟩
  | reset => exact absurd hm hr

/-- One delivery of an execution. -/
theorem Execution.deliver_step (hf : e.Follows) (hm : e.move n = .deliver) :
    (e.state (n + 1)).oq = (e.state n).oq.tail ∧
      (e.state (n + 1)).taken = (e.state n).taken ++ (e.state n).oq.take 1 := by
  obtain ⟨t, ht, hs⟩ := hf n
  rw [hm] at ht; cases ht
  obtain ⟨h1, h2, _⟩ := deliver_channels (e.state n)
  rw [hs]; exact ⟨h1, h2⟩

/-- One step of an execution that is no RESET and no delivery: `OQ` only grows at its tail. -/
theorem Execution.keep_output (hf : e.Follows) (hr : e.move n ≠ .reset) (hd : e.move n ≠ .deliver) :
    (∃ out, (e.state (n + 1)).oq = (e.state n).oq ++ out) ∧ (e.state (n + 1)).taken = (e.state n).taken := by
  have hm : e.move n = .accept := by cases h : e.move n <;> simp_all
  cases he : (e.state n).acceptEnabled
  · obtain ⟨t, ht, hs⟩ := hf n
    rw [hm] at ht
    have : t = e.state n := offer_disabled he ht
    rw [hs, this]; exact ⟨⟨[], by simp⟩, rfl⟩
  · obtain ⟨w, rest, t, _, hx, hs⟩ := e.accept_step hf hm he
    rw [exec_decode] at hx
    obtain ⟨_, h2, _, h4⟩ := accept_channels hx
    rw [hs]; exact ⟨h4, h2⟩

/-- No step changes the parameters. -/
theorem Execution.cfg_const (hf : e.Follows) : ∀ k, (e.state (n + k)).cfg = (e.state n).cfg := by
  intro k
  induction k with
  | zero => rfl
  | succ k ih =>
    rw [← ih, ← Nat.add_assoc]
    obtain ⟨t, ht, hs⟩ := hf (n + k)
    cases hm : e.move (n + k) with
    | accept =>
      cases he : (e.state (n + k)).acceptEnabled
      · rw [hm] at ht; rw [hs, offer_disabled he ht]
      · obtain ⟨w, rest, u, _, hx, hs'⟩ := e.accept_step hf hm he
        rw [exec_decode] at hx
        rw [hs']; exact (accept_channels hx).2.2.1
    | deliver => rw [hm] at ht; cases ht; rw [hs]; exact (deliver_channels _).2.2.2
    | reset => rw [hm] at ht; cases ht; rw [hs]; rfl

/-- If what is never undone never happens, it holds for ever; otherwise it happens a first time, and holds until then. -/
theorem until_first {P H : Nat → Prop} (hP : P n) (hstep : ∀ k, n ≤ k → ¬H k → P k → P (k + 1)) :
    (∃ k, n ≤ k ∧ H k ∧ P k) ∨ ((∀ k, n ≤ k → ¬H k) ∧ ∀ k, n ≤ k → P k) := by
  classical
  by_cases hx : ∃ k, n ≤ k ∧ H k ∧ P k
  · exact .inl hx
  · have hall : ∀ k, n ≤ k → P k := by
      intro k hk
      induction k, hk using Nat.le_induction with
      | base => exact hP
      | succ k hk ih => exact hstep k hk (fun hh => hx ⟨k, hk, hh, ih⟩) ih
    exact .inr ⟨fun k hk hh => hx ⟨k, hk, hh, hall k hk⟩, hall⟩

/-- The head of `OQ` is delivered within finite time, while no RESET comes. -/
theorem Execution.head_delivered (hl : e.Live) (hr : e.NoResetFrom n) {b : List OutBeat} {w : OutBeat}
    (h : (e.state n).oq = w :: b) :
    ∃ k c, n ≤ k ∧ e.move k = .deliver ∧ (e.state k).oq = w :: b ++ c ∧ (e.state k).taken = (e.state n).taken := by
  have hfirst := until_first (n := n) (H := fun k => e.move k = .deliver)
    (P := fun k => (∃ c, (e.state k).oq = w :: b ++ c) ∧ (e.state k).taken = (e.state n).taken)
    ⟨⟨[], by simpa using h⟩, rfl⟩ (by
      rintro k hk hd ⟨⟨c, hc⟩, ht⟩
      obtain ⟨⟨out, ho⟩, ht'⟩ := e.keep_output hl.follows (hr k hk) hd
      exact ⟨⟨c ++ out, by rw [ho, hc]; simp⟩, by rw [ht', ht]⟩)
  rcases hfirst with ⟨k, hk, hd, ⟨c, hc⟩, ht⟩ | ⟨hnever, hall⟩
  · exact ⟨k, c, hk, hd, hc, ht⟩
  · obtain ⟨k, hk, hd⟩ := hl.deliverFair n fun k hk => by
      obtain ⟨⟨c, hc⟩, _⟩ := hall k hk
      simp [State.deliverEnabled, State.outValid, hc]
    exact absurd hd (hnever k hk)

/-- R245: every beat in `OQ` is offered and taken within finite time, after the beats before it and whatever the input
side does, while no RESET comes. `FLT` may be 1 (60_exceptions.md R203), and no further input is needed. -/
theorem Execution.emitted_delivered (hl : e.Live) (hr : e.NoResetFrom n) {a b : List OutBeat} {w : OutBeat}
    (h : (e.state n).oq = a ++ w :: b) :
    ∃ k c, n ≤ k ∧ e.move k = .deliver ∧ (e.state k).outBeat = some w ∧ (e.state k).oq = w :: b ++ c ∧
      (e.state k).taken = (e.state n).taken ++ a := by
  induction a generalizing n b with
  | nil =>
    obtain ⟨k, c, hk, hd, hc, ht⟩ := e.head_delivered hl hr h
    exact ⟨k, c, hk, hd, by simp [State.outBeat, hc], hc, by simpa using ht⟩
  | cons x a ih =>
    obtain ⟨k, c, hk, hd, hc, ht⟩ := e.head_delivered hl hr h
    obtain ⟨h1, h2⟩ := e.deliver_step hl.follows hd
    obtain ⟨k', c', hk', hd', hb, hq, ht'⟩ := ih (n := k + 1) (b := b ++ c)
      (fun j hj => hr j (by omega)) (by rw [h1, hc]; simp)
    exact ⟨k', c ++ c', by omega, hd', hb, by rw [hq]; simp, by rw [ht', h2, hc, ht]; simp⟩

/-- While no beat is taken and no RESET comes, a live execution empties `OQ`, and it stays empty. -/
theorem Execution.drains (hl : e.Live) (hr : e.NoResetFrom n)
    (ha : ∀ k, n ≤ k → ¬(e.move k = .accept ∧ (e.state k).acceptEnabled = true)) :
    ∃ m, n ≤ m ∧ ∀ k, m ≤ k → (e.state k).oq = [] := by
  have hidle : ∀ k, n ≤ k → (e.state (k + 1)).oq = (e.state k).oq ∨ (e.state (k + 1)).oq = (e.state k).oq.tail :=
    fun k hk => (e.idle_step hl.follows (hr k hk) fun hm => by
      cases he : (e.state k).acceptEnabled
      · rfl
      · exact absurd ⟨hm, he⟩ (ha k hk)).2
  have hmono : ∀ j k, n ≤ j → j ≤ k → (e.state k).oq.length ≤ (e.state j).oq.length := by
    intro j k hj hk
    induction k, hk using Nat.le_induction with
    | base => exact le_rfl
    | succ k hk ih =>
      have : (e.state (k + 1)).oq.length ≤ (e.state k).oq.length := by
        rcases hidle k (by omega) with h | h <;> rw [h]; simp
      omega
  have hempty : ∀ len m, n ≤ m → (e.state m).oq.length ≤ len → ∃ k, n ≤ k ∧ (e.state k).oq.length = 0 := by
    intro len
    induction len with
    | zero => exact fun m hm h => ⟨m, hm, by omega⟩
    | succ len ih =>
      intro m hm h
      cases hq : (e.state m).oq with
      | nil => exact ⟨m, hm, by simp [hq]⟩
      | cons w b =>
        obtain ⟨k, c, hk, hd, _, hoq, _⟩ :=
          e.emitted_delivered hl (n := m) (a := []) (fun j hj => hr j (by omega)) hq
        have h1 := (e.deliver_step hl.follows hd).1
        have h2 := hmono m k hm hk
        refine ih (k + 1) (by omega) ?_
        rw [h1, List.length_tail]; omega
  obtain ⟨m, hm, h0⟩ := hempty _ n le_rfl le_rfl
  refine ⟨m, hm, fun k hk => ?_⟩
  have := hmono m k hm hk
  exact List.length_eq_zero_iff.mp (by omega)

/-- The beat the producer offers is accepted within finite time, while no RESET comes, the block does not fault, and each
offered beat's output fits in an empty `OQ`. -/
theorem Execution.head_accepted (hl : e.Live) (hr : e.NoResetFrom n) (hf : e.NoFaultFrom n) (hfit : e.FitsFrom n)
    {b : List Beat} {w : Beat} (h : (e.state n).inq = w :: b) :
    ∃ k c, n ≤ k ∧ e.move k = .accept ∧ (e.state k).acceptEnabled = true ∧ (e.state k).inq = w :: b ++ c := by
  have hfirst := until_first (n := n)
    (H := fun k => e.move k = .accept ∧ (e.state k).acceptEnabled = true)
    (P := fun k => ∃ c, (e.state k).inq = w :: b ++ c) ⟨[], by simpa using h⟩ (by
      rintro k hk hn ⟨c, hc⟩
      have := (e.idle_step hl.follows (hr k hk) fun hm => by
        cases he : (e.state k).acceptEnabled
        · rfl
        · exact absurd ⟨hm, he⟩ hn).1
      exact ⟨c ++ e.arriving k, by rw [this, hc]; simp⟩)
  rcases hfirst with ⟨k, hk, ⟨hm, he⟩, c, hc⟩ | ⟨hnever, hall⟩
  · exact ⟨k, c, hk, hm, he, hc⟩
  · obtain ⟨m, hm, hempty⟩ := e.drains hl hr hnever
    have henabled : ∀ k, m ≤ k → (e.state k).acceptEnabled = true := by
      intro k hk
      obtain ⟨c, hc⟩ := hall k (by omega)
      have hs : ({ e.state k with oq := [] } : State) = e.state k := by rw [← hempty k hk]
      have hroom := hfit k (by omega)
      rw [hs] at hroom
      simp [State.acceptEnabled, State.inReady, hf k (by omega), hc, hroom]
    obtain ⟨k, hk, ht⟩ := hl.acceptFair m henabled
    exact absurd ⟨ht, henabled k hk⟩ (hnever k (by omega))

/-- R245: every offered input beat is accepted within finite time, after the beats before it, while no RESET comes, the
block does not fault, and each offered beat's output fits in an empty `OQ`. -/
theorem Execution.offered_accepted (hl : e.Live) (hr : e.NoResetFrom n) (hf : e.NoFaultFrom n) (hfit : e.FitsFrom n)
    {a b : List Beat} {w : Beat} (h : (e.state n).inq = a ++ w :: b) :
    ∃ k c, n ≤ k ∧ e.move k = .accept ∧ (e.state k).acceptEnabled = true ∧ (e.state k).inq = w :: b ++ c := by
  induction a generalizing n b with
  | nil => exact e.head_accepted hl hr hf hfit h
  | cons x a ih =>
    obtain ⟨k, c, hk, hm, he, hc⟩ := e.head_accepted hl hr hf hfit h
    obtain ⟨y, rest, t, hi, _, hs⟩ := e.accept_step hl.follows hm he
    have hrest : rest = a ++ w :: b ++ c := by rw [hc] at hi; simpa using (List.cons.inj hi).2.symm
    obtain ⟨k', c', hk', hm', he', hq⟩ := ih (n := k + 1) (b := b ++ (c ++ e.arriving k))
      (fun j hj => hr j (by omega)) (fun j hj => hf j (by omega)) (fun j hj => hfit j (by omega))
      (by rw [hs, hrest]; simp)
    exact ⟨k', c ++ e.arriving k ++ c', by omega, hm', he', by rw [hq]; simp⟩

/-- In the unbounded model of 10_state.md R29 there is room for every beat, so R245 needs no more than the block's not
faulting. -/
theorem Execution.fits_unbounded (hf : e.Follows) (h : (e.state n).cfg.oqDepth = none) : e.FitsFrom n := by
  intro k hk
  refine roomForNext_unbounded ?_
  have := e.cfg_const (n := n) hf (k - n)
  rw [Nat.add_sub_cancel' hk] at this
  show (e.state k).cfg.oqDepth = none
  rw [this, h]

end Sys2Proof.Machine
end

