-- ==== Sys2Proof/Laws/Invariant.lean ====
section
/-! SUPPORT. The parts of ACCEPT under an operation in force, and what each part keeps of the invariants of 10_state.md R31. -/

namespace Sys2Proof.Machine

/-- Where `o` is in force, the opening part leaves its message open (30_encoding.md R90, 40_framing.md R112). -/
theorem opening_inForce {o : Op} {s : State} (h : InForce o s) : opening o.code s = some { s with busy := true, op := o } := by
  cases hb : s.busy
  · rw [opening_idle o hb]; rfl
  · rw [opening_busy hb]
    rcases h with h | h
    · rw [hb] at h; cases h
    · subst h; cases s; simp_all

/-- A beat written for the operation in force, bubbles apart, is its symbol part and then its closing part (R110). -/
theorem accept_inForce {o : Op} {s : State} (hf : s.flt = false) (h : InForce o s) (l k : Bool) (d : Symbol)
    (hlk : l = true ∨ k = true) :
    accept o.code l k d s = match symbolPart k d { s with busy := true, op := o } with
      | .done s2 => .next (closingPart l s2)
      | .raised c => .next (s.raiseFault c)
      | .stopped f => .fault f := by
  have : (!l && !k) = false := by rcases hlk with rfl | rfl <;> simp
  unfold accept
  rw [this, opening_inForce h, if_neg (by simp [hf]), if_neg (by simp)] <;> rfl

/-- `SYM(d)` is an output beat (30_encoding.md R83). -/
theorem outBeatOk_sym (d : Symbol) : OutBeatOk (symBeat d) := by
  left; unfold symBeat
  apply BitVec.eq_of_getLsbD_eq; intro i hi; interval_cases i <;> simp

/-- Emitting symbols keeps the queue one of output beats. -/
theorem outBeatOk_map {q : List OutBeat} (ds : List Symbol) (h : ∀ w ∈ q, OutBeatOk w) :
    ∀ w ∈ q ++ ds.map symBeat, OutBeatOk w := by
  intro w hw
  simp only [List.mem_append, List.mem_map] at hw
  rcases hw with hw | ⟨d, _, rfl⟩
  · exact h w hw
  · exact outBeatOk_sym d

/-- Emitting `END` keeps the queue one of output beats. -/
theorem outBeatOk_end {q : List OutBeat} (h : ∀ w ∈ q, OutBeatOk w) : ∀ w ∈ q ++ [endBeat], OutBeatOk w := by
  intro w hw
  simp only [List.mem_append, List.mem_singleton] at hw
  rcases hw with hw | rfl
  · exact h w hw
  · exact .inr rfl

/-- The opening part keeps the invariants and leaves a message open. -/
theorem inv_opening {code : BitVec 2} {s s1 : State} (hi : s.Inv) (hf : s.flt = false) (h : opening code s = some s1) :
    s1.Inv ∧ s1.busy = true ∧ s1.flt = false := by
  rcases opening_eq_some h with ⟨hb, rfl⟩ | ⟨hb, o, _, rfl⟩
  · exact ⟨hi, hb, hf⟩
  · obtain ⟨a1,a2,a3,a4,a5,a6,a7,a8,a9⟩ := hi
    obtain ⟨g, p⟩ := a1 hb
    refine ⟨⟨by simp, ?_, ?_, ?_, by simpa using a5, by simpa using a6, by simpa using a7, by simpa using a8,
        by simpa using a9⟩, by simp, by simpa using hf⟩
    · intro _ _; simp [g, p]
    · intro _ _; simp [p]
    · intro _ _; simp [g]

/-- The symbol part keeps the invariants. -/
theorem inv_symbolPart {keep : Bool} {d : Symbol} {s t : State} (hi : s.Inv) (hb : s.busy = true)
    (h : symbolPart keep d s = .done t) : t.Inv := by
  cases keep
  · rw [symbolPart_none] at h; cases h; exact hi
  obtain ⟨a1,a2,a3,a4,a5,a6,a7,a8,a9⟩ := hi
  cases ho : s.op
  · rw [symbolPart_enc d ho] at h
    obtain ⟨g, p⟩ := a2 hb ho
    rcases encTake_cases d s with ⟨h2, hs⟩ | ⟨h2, h3, hs⟩ | ⟨_, hs⟩ <;> rw [hs] at h <;> cases h
    · refine ⟨by simp [hb], by simp [p], by simp [ho], by simp, by simpa using a5, by simpa using a6, ?_,
        by simpa using a8, by simpa using a9⟩
      simpa using outBeatOk_map _ a7
    · refine ⟨by simp [hb], ?_, by simp [ho], by simp [ho], by simpa using a5, by simpa using a6, by simpa using a7,
        by simpa using a8, by simpa using a9⟩
      intro _ _; simp [p]
      rcases bits2_cases s.gc with h | h | h | h <;> simp_all
  · rw [symbolPart_dec d ho] at h
    rcases decTake_cases d s with ⟨h2, hs⟩ | ⟨h2, hs⟩ <;> rw [hs] at h <;> cases h
    · refine ⟨by simp [hb], by simp [ho], by simpa using a3, by simp, by simpa using a5, by simpa using a6, ?_,
        by simpa using a8, by simpa using a9⟩
      simpa using outBeatOk_map _ a7
    · exact ⟨by simp [hb], by simp [ho], by simpa using a3, by simp [ho], by simpa using a5, by simpa using a6,
        by simpa using a7, by simpa using a8, by simpa using a9⟩
  · rw [symbolPart_trim d ho] at h
    rcases trimTake_cases d s with ⟨h1, h2, hs⟩ | ⟨h1, h2, hs⟩ | ⟨_, hs⟩ <;> rw [hs] at h <;> cases h
    · refine ⟨by simp [hb], by simp [ho], by simp [ho], by simpa using a4, by simpa using a5, by simpa using a6,
        by simpa using a7, ?_, by simpa using a9⟩
      simp; omega
    · refine ⟨by simp [hb], by simp [ho], by simp [ho], by simpa using a4, by simpa using a5, by simpa using a6, ?_,
        by simp, by simpa using a9⟩
      simpa using outBeatOk_map (List.replicate s.pr padChar ++ [d]) a7

/-- The closing part keeps the invariants. -/
theorem inv_closingPart {last : Bool} {s : State} (hi : s.Inv) (hb : s.busy = true) : (closingPart last s).Inv := by
  cases last
  · exact hi
  obtain ⟨a1,a2,a3,a4,a5,a6,a7,a8,a9⟩ := hi
  have hp : s.op ≠ .trim → s.pr = 0 := by
    intro h; cases ho : s.op
    · exact (a2 hb ho).2
    · exact a3 hb ho
    · exact absurd ho h
  simp only [closingPart, if_true]
  rcases closeGroup_cases s with ⟨hn, ds, h⟩ | ⟨hn, h⟩ <;> rw [h]
  · refine ⟨by simp [hp hn], by simp, by simp, by simp, by simpa using a5, by simpa using a6, ?_, by simpa using a8,
      by simpa using a9⟩
    have := outBeatOk_end (outBeatOk_map ds a7)
    intro w hw; apply this; simpa using hw
  · refine ⟨by simp [a4 hb hn], by simp, by simp, by simp, by simpa using a5, by simpa using a6, ?_, by simp, by simpa using a9⟩
    have := outBeatOk_end a7
    intro w hw; apply this; simpa using hw

end Sys2Proof.Machine
end

