-- ==== Sys2Proof/Laws/Message.lean ====
section
/-! SUPPORT. `TRIMPAD` and the padding character: how a trailing run of `=` is cut. -/

namespace Sys2Proof.Machine

/-- No forward-table entry is `=` (20_memory.md R58 item 3). -/
theorem fwd_ne_pad (i : Sextet) : fwd i ≠ padChar := by revert i; decide

/-- `TRIMPAD` as the library's cut from the right. -/
theorem trimMsg_eq (t : List Symbol) : trimMsg t = t.rdropWhile (· == padChar) := by
  unfold trimMsg trailingPads List.rdropWhile
  rw [← List.takeWhile_append_dropWhile (p := (· == padChar)) (l := t.reverse)]
  conv => lhs; rw [← List.reverse_reverse t, ← List.takeWhile_append_dropWhile (p := (· == padChar)) (l := t.reverse)]
  rw [List.reverse_append, List.take_append]
  simp

theorem trimMsg_nil : trimMsg [] = [] := rfl

/-- A character that is no `=` keeps everything before it (43_trimpadding.md R180). -/
theorem trimMsg_keep (a : List Symbol) {c : Symbol} (m : List Symbol) (hc : c ≠ padChar) :
    trimMsg (a ++ c :: m) = a ++ c :: trimMsg m := by
  simp only [trimMsg_eq]
  induction m using List.reverseRecOn with
  | nil => rw [List.rdropWhile_concat_neg _ _ _ (by simpa using hc)]; rfl
  | append_singleton m x ih =>
    rw [show a ++ c :: (m ++ [x]) = (a ++ c :: m) ++ [x] by simp]
    by_cases hx : x = padChar
    · rw [List.rdropWhile_concat_pos _ _ _ (by simpa using hx), ih,
        List.rdropWhile_concat_pos _ _ _ (by simpa using hx)]
    · rw [List.rdropWhile_concat_neg _ _ _ (by simpa using hx),
        List.rdropWhile_concat_neg _ _ _ (by simpa using hx)]; simp

/-- A run of `=` at the end is cut whole (43_trimpadding.md R180). -/
theorem trimMsg_pads (a : List Symbol) (n : Nat) : trimMsg (a ++ List.replicate n padChar) = trimMsg a := by
  simp only [trimMsg_eq]
  induction n with
  | zero => simp
  | succ n ih => rw [List.replicate_succ', ← List.append_assoc, List.rdropWhile_concat_pos _ _ _ (by simp), ih]

end Sys2Proof.Machine
end

