-- ==== Sys2Proof/Laws/PerInstr.lean ====
section
/-! SUPPORT. Per form: the encoded beat lies in the row of the opcode table that bears the form's name (30_encoding.md R91). -/

namespace Sys2Proof.Laws.RowMatch

/-- Some row of the opcode map has the form's mnemonic and covers the form's beat. -/
def Statement (i : Instr) : Prop := ∃ r ∈ opcodeRows, r.mnemonic = i.mnemonic ∧ r.covers (encode i) = true

/-- A form lies in a row of the map if the row bears its name and covers its beat. -/
theorem of_row {i : Instr} (r : OpcodeRow) (hr : r ∈ opcodeRows) (hn : r.mnemonic = i.mnemonic)
    (hc : r.covers (encode i) = true) : Statement i := ⟨r, hr, hn, hc⟩

/-- `op` and `data` of a bubble are outside the row's mask. -/
theorem bubble_covered (op : BitVec 2) (u : Symbol) : encode (.bubble op u) &&& 0x300#12 = 0x000#12 := by
  apply BitVec.eq_of_getLsbD_eq
  intro k hk
  interval_cases k <;> simp [encode, packBeat, Instr.opBits, Instr.lastBit, Instr.keepBit]

/-- `data` is outside the mask of every other row. -/
theorem pack_covered (op : BitVec 2) (last keep : Bool) (d : Symbol) :
    packBeat op last keep d &&& 0xF00#12 = packBeat op last keep 0#8 := by
  apply BitVec.eq_of_getLsbD_eq
  intro k hk
  interval_cases k <;> simp [packBeat]

theorem bubble (op : BitVec 2) (u : Symbol) : Statement (.bubble op u) :=
  of_row ⟨"BUBBLE", 0x300#12, 0x000#12⟩ (by decide) rfl (by simp [OpcodeRow.covers, bubble_covered])

theorem encS (d : Symbol) : Statement (.encS d) :=
  of_row ⟨"ENC.S", 0xF00#12, 0x100#12⟩ (by decide) rfl (by
    simp only [OpcodeRow.covers, encode, pack_covered, Instr.opBits, Instr.lastBit, Instr.keepBit]; rfl)

theorem encE (u : Symbol) : Statement (.encE u) :=
  of_row ⟨"ENC.E", 0xF00#12, 0x200#12⟩ (by decide) rfl (by
    simp only [OpcodeRow.covers, encode, pack_covered, Instr.opBits, Instr.lastBit, Instr.keepBit]; rfl)

theorem encSE (d : Symbol) : Statement (.encSE d) :=
  of_row ⟨"ENC.SE", 0xF00#12, 0x300#12⟩ (by decide) rfl (by
    simp only [OpcodeRow.covers, encode, pack_covered, Instr.opBits, Instr.lastBit, Instr.keepBit]; rfl)

theorem decS (c : Symbol) : Statement (.decS c) :=
  of_row ⟨"DEC.S", 0xF00#12, 0x500#12⟩ (by decide) rfl (by
    simp only [OpcodeRow.covers, encode, pack_covered, Instr.opBits, Instr.lastBit, Instr.keepBit]; rfl)

theorem decE (u : Symbol) : Statement (.decE u) :=
  of_row ⟨"DEC.E", 0xF00#12, 0x600#12⟩ (by decide) rfl (by
    simp only [OpcodeRow.covers, encode, pack_covered, Instr.opBits, Instr.lastBit, Instr.keepBit]; rfl)

theorem decSE (c : Symbol) : Statement (.decSE c) :=
  of_row ⟨"DEC.SE", 0xF00#12, 0x700#12⟩ (by decide) rfl (by
    simp only [OpcodeRow.covers, encode, pack_covered, Instr.opBits, Instr.lastBit, Instr.keepBit]; rfl)

theorem trimS (c : Symbol) : Statement (.trimS c) :=
  of_row ⟨"TRIM.S", 0xF00#12, 0x900#12⟩ (by decide) rfl (by
    simp only [OpcodeRow.covers, encode, pack_covered, Instr.opBits, Instr.lastBit, Instr.keepBit]; rfl)

theorem trimE (u : Symbol) : Statement (.trimE u) :=
  of_row ⟨"TRIM.E", 0xF00#12, 0xA00#12⟩ (by decide) rfl (by
    simp only [OpcodeRow.covers, encode, pack_covered, Instr.opBits, Instr.lastBit, Instr.keepBit]; rfl)

theorem trimSE (c : Symbol) : Statement (.trimSE c) :=
  of_row ⟨"TRIM.SE", 0xF00#12, 0xB00#12⟩ (by decide) rfl (by
    simp only [OpcodeRow.covers, encode, pack_covered, Instr.opBits, Instr.lastBit, Instr.keepBit]; rfl)

theorem rsvS (d : Symbol) : Statement (.rsvS d) :=
  of_row ⟨"RSV.S", 0xF00#12, 0xD00#12⟩ (by decide) rfl (by
    simp only [OpcodeRow.covers, encode, pack_covered, Instr.opBits, Instr.lastBit, Instr.keepBit]; rfl)

theorem rsvE (u : Symbol) : Statement (.rsvE u) :=
  of_row ⟨"RSV.E", 0xF00#12, 0xE00#12⟩ (by decide) rfl (by
    simp only [OpcodeRow.covers, encode, pack_covered, Instr.opBits, Instr.lastBit, Instr.keepBit]; rfl)

theorem rsvSE (d : Symbol) : Statement (.rsvSE d) :=
  of_row ⟨"RSV.SE", 0xF00#12, 0xF00#12⟩ (by decide) rfl (by
    simp only [OpcodeRow.covers, encode, pack_covered, Instr.opBits, Instr.lastBit, Instr.keepBit]; rfl)

end Sys2Proof.Laws.RowMatch
end

