-- ==== Sys2Proof/Tests/Slice0.lean ====
section
/-! SUPPORT. Checks of the model on fixed values taken from the spec, and for every claim with hypotheses a state and
operands that meet them all. -/

namespace Sys2Proof.Tests

open Sys2Proof Sys2Proof.Machine

/-- The next state, where there is one. -/
def nextOf (o : Host.Outcome State Fault Refusal) : Option State :=
  match o with
  | .next t => some t
  | .fault _ => none
  | .refused _ => none

/-- The fault, where the model stops with one. -/
def faultOf (o : Host.Outcome State Fault Refusal) : Option Fault :=
  match o with
  | .next _ => none
  | .fault f => some f
  | .refused _ => none

/-- Accepting one beat of the spec's notation (30_encoding.md R92). -/
def acc (w : Beat) (s : State) : Option State := nextOf (exec (decode w) s)

/-- What one beat leaves in `OQ`. -/
def out (w : Beat) (s : State) : Option (List OutBeat) := (acc w s).map (·.oq)

/-- An open ENC message with `g` bytes held. -/
def inEnc (g : BitVec 2) (a b : Symbol) : State := { State.reset with busy := true, op := .enc, gc := g, gb0 := a, gb1 := b }

/-- An open DEC message with `g` characters held. -/
def inDec (g : BitVec 2) (a b c : Symbol) : State :=
  { State.reset with busy := true, op := .dec, gc := g, gb0 := a, gb1 := b, gb2 := c }

/-- An open TRIM message with `p` characters `=` held back, and a run counter of 2 bits (program P5 of
95_test_vectors.md). -/
def inTrim (p : Nat) : State := { State.reset with busy := true, op := .trim, pr := p, cfg := { Params.hw with runW := 2 } }

/-- A faulted block with one beat waiting. -/
def faulted : State := { State.reset with flt := true, fcode := rsvopCode, oq := [0x151#10] }

/-! ## Well-formedness: every form is legal; the canonical check refuses one term for each of its conditions (R89, R92) -/

theorem test_wf_accepts_every_shape :
    ([.bubble 3#2 0xFF#8, .encS 1#8, .encE 1#8, .encSE 1#8, .decS 1#8, .decE 1#8, .decSE 1#8, .trimS 1#8, .trimE 1#8,
      .trimSE 1#8, .rsvS 1#8, .rsvE 1#8, .rsvSE 1#8] : List Instr).all Instr.wf = true := by decide

theorem test_canonical_refuses_bubble_op : (Instr.bubble 1#2 0#8).canonical = false := by decide
theorem test_canonical_refuses_bubble_data : (Instr.bubble 0#2 1#8).canonical = false := by decide
theorem test_canonical_refuses_encE_data : (Instr.encE 0xFF#8).canonical = false := by decide
theorem test_canonical_refuses_decE_data : (Instr.decE 0xFF#8).canonical = false := by decide
theorem test_canonical_refuses_trimE_data : (Instr.trimE 0xFF#8).canonical = false := by decide
theorem test_canonical_refuses_rsvS : (Instr.rsvS 0#8).canonical = false := by decide
theorem test_canonical_refuses_rsvE : (Instr.rsvE 0#8).canonical = false := by decide
theorem test_canonical_refuses_rsvSE : (Instr.rsvSE 0#8).canonical = false := by decide
theorem test_canonical_accepts : (Instr.bubble 0#2 0#8).canonical = true ∧ (Instr.encE 0#8).canonical = true := by decide

/-! ## Decoding: one word of every form, bit by bit from R91: `op` `last` `keep` `data` -/

theorem test_decode_bubble : decode 0b11_0_0_11111111#12 = .bubble 3#2 0xFF#8 := by decide
theorem test_decode_encS : decode 0b00_0_1_01001101#12 = .encS 0x4D#8 := by decide
theorem test_decode_encE : decode 0b00_1_0_00000000#12 = .encE 0#8 := by decide
theorem test_decode_encSE : decode 0b00_1_1_01101110#12 = .encSE 0x6E#8 := by decide
theorem test_decode_decS : decode 0b01_0_1_01010100#12 = .decS 0x54#8 := by decide
theorem test_decode_decE : decode 0b01_1_0_00000000#12 = .decE 0#8 := by decide
theorem test_decode_decSE : decode 0b01_1_1_00111101#12 = .decSE 0x3D#8 := by decide
theorem test_decode_trimS : decode 0b10_0_1_00111101#12 = .trimS 0x3D#8 := by decide
theorem test_decode_trimE : decode 0b10_1_0_00000000#12 = .trimE 0#8 := by decide
theorem test_decode_trimSE : decode 0b10_1_1_01100001#12 = .trimSE 0x61#8 := by decide
theorem test_decode_rsvS : decode 0b11_0_1_01100001#12 = .rsvS 0x61#8 := by decide
theorem test_decode_rsvE : decode 0b11_1_0_00000000#12 = .rsvE 0#8 := by decide
theorem test_decode_rsvSE : decode 0b11_1_1_01101110#12 = .rsvSE 0x6E#8 := by decide

/-- R92 writes these words out. -/
theorem test_encode_spec_words :
    encode (.encS 0x4D#8) = 0x14D#12 ∧ encode (.encSE 0x6E#8) = 0x36E#12 ∧ encode (.decSE 0x3D#8) = 0x73D#12 ∧
    encode (.trimS 0x3D#8) = 0x93D#12 ∧ encode (.rsvE 0#8) = 0xE00#12 := by decide

theorem test_decodeTableWord : decodeTableWord 12 0xB61 = some (.trimSE 0x61#8) := by decide
theorem test_decodeTableWord_too_wide : decodeTableWord 16 0x1000 = none := by decide
theorem test_withFetchWord_runs_the_beat :
    nextOf (step (State.reset.withFetchWord 12 0x554)) = acc 0x554#12 State.reset := by decide

/-! ## Tables and data paths (95_test_vectors.md 2.1 to 2.3) -/

theorem test_fwd_corners : [0#6, 25#6, 26#6, 51#6, 52#6, 61#6, 62#6, 63#6].map fwd =
    [0x41#8, 0x5A#8, 0x61#8, 0x7A#8, 0x30#8, 0x39#8, 0x2B#8, 0x2F#8] := by decide
theorem test_rev_corners :
    [0x41#8, 0x5A#8, 0x61#8, 0x7A#8, 0x30#8, 0x39#8, 0x2B#8, 0x2F#8, 0x3D#8].map (rev Params.hw) =
      [0#8, 25#8, 26#8, 51#8, 52#8, 61#8, 62#8, 63#8, 0#8] := by decide
/-- V-T4: the codes beside each range. -/
theorem test_rev_sentinel :
    [0x00#8, 0x0A#8, 0x20#8, 0x2A#8, 0x2C#8, 0x2D#8, 0x2E#8, 0x3A#8, 0x3C#8, 0x3E#8, 0x40#8, 0x5B#8, 0x5F#8, 0x60#8,
      0x7B#8, 0x7F#8, 0x80#8, 0xFF#8].all (fun c => rev Params.hw c == 0xFF#8) = true := by decide
/-- V-L3, V-L11. -/
theorem test_slice : slice 0x4D#8 0x61#8 0x6E#8 = ⟨19#6, 22#6, 5#6, 46#6⟩ ∧ slice 0x01#8 0x23#8 0x45#8 = ⟨0#6, 18#6, 13#6, 5#6⟩ := by
  decide
/-- V-J5 to V-J9. -/
theorem test_join :
    join 19#8 255#8 5#8 46#8 = ⟨0x4F#8, 0xF1#8, 0x6E#8⟩ ∧ join 255#8 22#8 5#8 46#8 = ⟨0xFD#8, 0x61#8, 0x6E#8⟩ ∧
    join 19#8 22#8 255#8 46#8 = ⟨0x4D#8, 0x7F#8, 0xEE#8⟩ ∧ join 19#8 22#8 5#8 255#8 = ⟨0x4D#8, 0x61#8, 0xFF#8⟩ ∧
    join 19#8 22#8 5#8 0x40#8 = ⟨0x4D#8, 0x61#8, 0x40#8⟩ := by decide

/-! ## One step of every form (the examples of the rules, and vectors of 95_test_vectors.md) -/

/-- R111: no effect inside a message, even with `op` = 3. -/
theorem test_bubble_in_message : acc 0xC00#12 (inEnc 1#2 0x4D#8 0#8) = some (inEnc 1#2 0x4D#8 0#8) := by decide
/-- R111: a bubble does not open a message. -/
theorem test_bubble_between_messages : acc 0x000#12 State.reset = some State.reset := by decide
/-- R134: the third byte of "Man". -/
theorem test_encS_completes_group :
    out 0x16E#12 (inEnc 2#2 0x4D#8 0x61#8) = some [0x154#10, 0x157#10, 0x146#10, 0x175#10] := by decide
/-- R114: `0x561` under an open ENC message is `ENC_S(0x61)`. -/
theorem test_encS_under_other_op : acc 0x561#12 (inEnc 1#2 0x4D#8 0#8) = some (inEnc 2#2 0x4D#8 0x61#8) := by decide
/-- R136: closing "Ma". -/
theorem test_encE_one_missing :
    out 0x200#12 (inEnc 2#2 0x4D#8 0x61#8) = some [0x154#10, 0x157#10, 0x145#10, 0x13D#10, 0x200#10] := by decide
/-- R136: the filler is 0x00, not the stale cell; V-E10 with a stale 0xFF. -/
theorem test_encE_ignores_stale_cell :
    out 0x200#12 (inEnc 1#2 0xFF#8 0xFF#8) = some [0x12F#10, 0x177#10, 0x13D#10, 0x13D#10, 0x200#10] := by decide
/-- R137: "M" in one beat. -/
theorem test_encSE_whole_message : out 0x34D#12 State.reset = some [0x154#10, 0x151#10, 0x13D#10, 0x13D#10, 0x200#10] := by
  decide
/-- R137: `GC` = 2 gives four characters and no `=`. -/
theorem test_encSE_full_group :
    out 0x36E#12 (inEnc 2#2 0x4D#8 0x61#8) = some [0x154#10, 0x157#10, 0x146#10, 0x175#10, 0x200#10] := by decide
/-- R112: the example of the rule. -/
theorem test_decS_opens :
    (acc 0x554#12 State.reset).map (fun t => (t.busy, t.op.code, t.gb0, t.gc)) = some (true, 1#2, 0x54#8, 1#2) := by decide
/-- R156, V-D11: "TW=u". -/
theorem test_decS_skips_middle_byte :
    out 0x575#12 (inDec 3#2 0x54#8 0x57#8 0x3D#8) = some [0x14D#10, 0x12E#10] := by decide
/-- R160: closing "TQ". -/
theorem test_decE_two_supplied : out 0x600#12 (inDec 2#2 0x54#8 0x51#8 0xFF#8) = some [0x14D#10, 0x200#10] := by decide
/-- V-D8 with `PADVAL` = 0xFF. -/
theorem test_decE_one_left :
    out 0x600#12 { inDec 1#2 0x54#8 0#8 0#8 with cfg := { Params.hw with padval := 0xFF#8 } } =
      some [0x14F#10, 0x200#10] := by decide
/-- R164: closing "TWE=". -/
theorem test_decSE_pad : out 0x73D#12 (inDec 3#2 0x54#8 0x57#8 0x45#8) = some [0x14D#10, 0x161#10, 0x200#10] := by decide
/-- V-D26: "!" in one beat. -/
theorem test_decSE_whole_message : out 0x721#12 State.reset = some [0x1FC#10, 0x200#10] := by decide
/-- R183: `PR` = 2, then `b`. -/
theorem test_trimS_replays :
    (acc 0x962#12 (inTrim 2)).map (fun t => (t.oq, t.pr)) = some ([0x13D#10, 0x13D#10, 0x162#10], 0) := by decide
/-- R184: the counter of 2 bits is full. -/
theorem test_trimS_overflows :
    (acc 0x93D#12 (inTrim 3)).map (fun t => (t.flt, t.fcode, t.busy, t.pr, t.oq)) = some (true, 2#2, true, 3, []) := by decide
/-- R185: the held run is dropped. -/
theorem test_trimE_drops : (acc 0xA00#12 (inTrim 2)).map (fun t => (t.oq, t.pr, t.busy)) = some ([0x200#10], 0, false) := by
  decide
/-- R187: `PR` = 1, then `b` and close. -/
theorem test_trimSE_replays : out 0xB62#12 (inTrim 1) = some [0x13D#10, 0x162#10, 0x200#10] := by decide
/-- Program P5, step 5: the closing part is not executed. -/
theorem test_trimSE_overflow_has_no_end :
    (acc 0xB3D#12 (inTrim 3)).map (fun t => (t.flt, t.fcode, t.busy, t.oq)) = some (true, 2#2, true, []) := by decide
/-- V-F6: the symbol is not taken. -/
theorem test_rsvS_faults :
    (acc 0xD41#12 State.reset).map (fun t => (t.flt, t.fcode, t.busy, t.gc, t.oq)) = some (true, 1#2, false, 0#2, []) := by decide
/-- V-F3: `0xD61` under an open message is an ordinary S beat. -/
theorem test_rsvS_continues : acc 0xD61#12 (inEnc 1#2 0x4D#8 0#8) = some (inEnc 2#2 0x4D#8 0x61#8) := by decide
/-- V-F5. -/
theorem test_rsvE_faults : (acc 0xE00#12 State.reset).map (fun t => (t.flt, t.fcode, t.busy, t.oq)) = some (true, 1#2, false, []) := by
  decide
/-- R90, R185: an E beat spelled with `op` = 3 closes the open message. -/
theorem test_rsvE_closes : out 0xE00#12 (inTrim 2) = some [0x200#10] := by decide
/-- R113. -/
theorem test_rsvSE_faults : (acc 0xF6E#12 State.reset).map (fun t => (t.flt, t.oq)) = some (true, []) := by decide
/-- V-F3: `0xF6E` under an open ENC message closes it. -/
theorem test_rsvSE_closes :
    out 0xF6E#12 (inEnc 2#2 0x4D#8 0x61#8) = some [0x154#10, 0x157#10, 0x146#10, 0x175#10, 0x200#10] := by decide

/-! ## Witnesses: for each claim with hypotheses, values that meet them all -/

theorem witness_DecodeEncodeRoundTrip : (Instr.encS 0xFF#8).wf = true := by decide
/-- Both ends of each range of R55. -/
theorem witness_ForwardTableFollowsAlphabet :
    (0#6).toNat ≤ 25 ∧ (25#6).toNat ≤ 25 ∧ 26 ≤ (26#6).toNat ∧ (51#6).toNat ≤ 51 ∧ 52 ≤ (52#6).toNat ∧ (61#6).toNat ≤ 61 ∧
    (62#6).toNat = 62 ∧ (63#6).toNat = 63 := by decide
/-- Both ends of each range of R54, and codes beside them that meet its last line. -/
theorem witness_ReverseTableFollowsAlphabet :
    ([0x41#8, 0x5A#8].all fun c => 0x41 ≤ c.toNat && c.toNat ≤ 0x5A) ∧
    ([0x61#8, 0x7A#8].all fun c => 0x61 ≤ c.toNat && c.toNat ≤ 0x7A) ∧
    ([0x30#8, 0x39#8].all fun c => 0x30 ≤ c.toNat && c.toNat ≤ 0x39) ∧
    (∀ c ∈ [0x00#8, 0x2A#8, 0x2C#8, 0x2E#8, 0x3A#8, 0x3C#8, 0x3E#8, 0x40#8, 0x5B#8, 0x60#8, 0x7B#8, 0xFF#8],
      ¬(0x41 ≤ c.toNat ∧ c.toNat ≤ 0x5A) ∧ ¬(0x61 ≤ c.toNat ∧ c.toNat ≤ 0x7A) ∧ ¬(0x30 ≤ c.toNat ∧ c.toNat ≤ 0x39) ∧
        c ≠ 0x2B#8 ∧ c ≠ 0x2F#8 ∧ c ≠ 0x3D#8) := by decide
/-- `SENTINEL` at its least legal value and at the hardware's; `FWD[0]` for the second law. -/
theorem witness_TablesAreInverse :
    Params.hw.Legal ∧ Params.Legal { Params.hw with sentinel := 64#8, padval := 255#8, runW := 1 } ∧ fwd 0#6 = 0x41#8 := by decide
theorem witness_SlicerAndJoinerInverse :
    (⟨0xFF#8, 0xFF#8, 0xFF#8⟩ : Bytes3) =
      join ((63#6).setWidth 8) ((63#6).setWidth 8) ((63#6).setWidth 8) ((63#6).setWidth 8) := by decide
/-- The four rows of R156: "TWFu", "TWE=", "TQ==", "TW=u". -/
theorem witness_EmitMaskTable :
    (0x46#8 ≠ 0x3D#8 ∧ 0x75#8 ≠ 0x3D#8 ∧ decGroup Params.hw 0x54#8 0x57#8 0x46#8 0x75#8 = [0x4D#8, 0x61#8, 0x6E#8]) ∧
    (0x45#8 ≠ 0x3D#8 ∧ decGroup Params.hw 0x54#8 0x57#8 0x45#8 0x3D#8 = [0x4D#8, 0x61#8]) ∧
    decGroup Params.hw 0x54#8 0x51#8 0x3D#8 0x3D#8 = [0x4D#8] ∧
    (0x75#8 ≠ 0x3D#8 ∧ decGroup Params.hw 0x54#8 0x57#8 0x3D#8 0x75#8 = [0x4D#8, 0x2E#8]) := by decide
/-- A faulted block and a busy one, each with a RESET due. -/
theorem witness_ResetStepClears :
    ({ faulted with moves := [.reset] } : State).moves = .reset :: [] ∧
    ({ inEnc 2#2 1#8 2#8 with moves := [.reset, .accept] } : State).moves = .reset :: [.accept] := by decide
theorem witness_StepKeepsInvariants :
    (State.reset.withFetchWord 12 0x34D).Inv ∧ (nextOf (step (State.reset.withFetchWord 12 0x34D))).isSome = true := by decide
/-- States of every kind meet the invariants: ENC at `GC` = 2, DEC at `GC` = 3, TRIM with the counter full, faulted. -/
theorem witness_NoStopUnderInvariants :
    (inEnc 2#2 1#8 2#8).Inv ∧ (inDec 3#2 1#8 2#8 3#8).Inv ∧ (inTrim 3).Inv ∧ faulted.Inv :=
  ⟨by decide, by decide, by decide, by decide⟩
theorem witness_ReservedOperation :
    State.reset.flt = false ∧ State.reset.busy = false ∧ (inTrim 3).flt = false ∧ (inTrim 3).busy = true ∧
    ((inTrim 3).op = .trim → (0x61#8) ≠ 0x3D#8) ∧ ((inEnc 2#2 1#8 2#8).op = .enc → (inEnc 2#2 1#8 2#8).gc ≠ 3#2) := by decide
/-- `0x561` and `0x161` under an open message; `0xB61` as an opening beat. -/
theorem witness_OpReadOnlyWhenOpening :
    ((inEnc 1#2 0#8 0#8).busy = true ∧ beatLast 0x561#12 = beatLast 0x161#12 ∧ beatKeep 0x561#12 = beatKeep 0x161#12 ∧
      beatData 0x561#12 = beatData 0x161#12) ∧
    (State.reset.busy = false ∧ beatBubble 0xB61#12 = false ∧ beatOp 0xB61#12 ≠ 3#2 ∧
      (acc 0xB61#12 State.reset).map (·.flt) = some false) := by decide
/-- Opening, under an open message, and at the end of a group. -/
theorem witness_EncSymbolResult :
    (State.reset.flt = false ∧ InForce .enc State.reset ∧ State.reset.gc ≠ 3#2) ∧
    (InForce .enc (inEnc 1#2 1#8 2#8) ∧ (inEnc 1#2 1#8 2#8).gc ≠ 3#2) ∧
    ((inEnc 2#2 1#8 2#8).flt = false ∧ InForce .enc (inEnc 2#2 1#8 2#8) ∧ (inEnc 2#2 1#8 2#8).gc = 2#2) := by decide
theorem witness_EncCloseResult :
    ((inEnc 1#2 1#8 0#8).flt = false ∧ InForce .enc (inEnc 1#2 1#8 0#8)) ∧ InForce .enc (inEnc 2#2 1#8 2#8) ∧
    InForce .enc State.reset := by decide
theorem witness_EncSymbolThenClose :
    State.reset.flt = false ∧ InForce .enc State.reset ∧ State.reset.gc ≠ 3#2 := by decide
theorem witness_EncStopsWithoutCell :
    (inEnc 3#2 1#8 2#8).flt = false ∧ InForce .enc (inEnc 3#2 1#8 2#8) ∧ (inEnc 3#2 1#8 2#8).gc = 3#2 ∧
    faultOf (exec (.encS 0#8) (inEnc 3#2 1#8 2#8)) = some .noGroupCell := by decide
theorem witness_DecSymbolResult :
    (State.reset.flt = false ∧ InForce .dec State.reset ∧ State.reset.gc ≠ 3#2) ∧
    ((inDec 3#2 1#8 2#8 3#8).flt = false ∧ InForce .dec (inDec 3#2 1#8 2#8 3#8) ∧ (inDec 3#2 1#8 2#8 3#8).gc = 3#2) := by decide
theorem witness_DecCloseResult :
    InForce .dec State.reset ∧ InForce .dec (inDec 1#2 1#8 0#8 0#8) ∧ InForce .dec (inDec 2#2 1#8 2#8 0#8) ∧
    ((inDec 3#2 1#8 2#8 3#8).flt = false ∧ InForce .dec (inDec 3#2 1#8 2#8 3#8)) := by decide
theorem witness_DecSymbolThenClose :
    (inDec 3#2 1#8 2#8 3#8).flt = false ∧ InForce .dec (inDec 3#2 1#8 2#8 3#8) := by decide
/-- The run counter one below its limit, at its limit, and another character. -/
theorem witness_TrimSymbolResult :
    ((inTrim 2).flt = false ∧ InForce .trim (inTrim 2) ∧ (inTrim 2).pr ≠ 2 ^ (inTrim 2).cfg.runW - 1) ∧
    (InForce .trim (inTrim 3) ∧ (inTrim 3).pr = 2 ^ (inTrim 3).cfg.runW - 1) ∧ (0x61#8) ≠ (0x3D#8) := by decide
theorem witness_TrimRunOverflow :
    (inTrim 3).flt = false ∧ (inTrim 3).busy = true ∧ (inTrim 3).op = .trim ∧
    (inTrim 3).pr = 2 ^ (inTrim 3).cfg.runW - 1 := by decide
theorem witness_TrimCloseResult : (inTrim 2).flt = false ∧ InForce .trim (inTrim 2) ∧ InForce .trim State.reset := by decide
/-- The last part: the first beat faults. -/
theorem witness_TrimSymbolThenClose :
    (inTrim 3).flt = false ∧ InForce .trim (inTrim 3) ∧ (acc 0x93D#12 (inTrim 3)).map (·.flt) = some true := by decide
theorem witness_FaultedBlockOnlyDrains :
    faulted.flt = true ∧ ({ faulted with moves := [.accept], inq := [0x14D#12] } : State).moves = .accept :: [] ∧
    ({ faulted with moves := [.deliver] } : State).moves = .deliver :: [] ∧ faulted.oq = 0x151#10 :: [] := by decide
/-- One beat for each of the two causes. -/
theorem witness_FaultCausesAndEntry :
    (State.reset.flt = false ∧ (nextOf (exec (.rsvE 0#8) State.reset)).map (·.fcode) = some 1#2) ∧
    ((inTrim 3).flt = false ∧ (nextOf (exec (.trimS 0x3D#8) (inTrim 3))).map (·.fcode) = some 2#2) := by decide
/-- A DELIVER and a RESET in the faulted state. -/
theorem witness_FaultStaysUntilReset :
    (nextOf (step { faulted with moves := [.deliver] })).map (fun t => (t.flt, t.oq)) = some (true, []) ∧
    (nextOf (step { faulted with moves := [.reset] })).map (fun t => (t.flt, t.oq)) = some (false, []) ∧
    ([Move.deliver] : List Move).head? ≠ some .reset ∧ ([Move.reset] : List Move).head? = some .reset := by decide
theorem witness_DeliverMovesTheHead :
    ({ faulted with moves := [.deliver] } : State).oq = 0x151#10 :: [] ∧
    (({ State.reset with moves := [.deliver] } : State).moves = .deliver :: [] ∧ State.reset.oq = []) := by decide
theorem witness_OfferedOutputIsStable :
    ({ State.reset with oq := [0x200#10] } : State).outBeat = some 0x200#10 ∧
    (acc 0x34D#12 { State.reset with oq := [0x200#10] }).isSome = true := by decide
/-- The unbounded block; the guarded block where the beats fit, and where they do not. -/
theorem witness_StepRunsDecodedBeat :
    (State.reset.withFetchWord 12 0x34D).moves = .accept :: [] ∧ (State.reset.withFetchWord 12 0x34D).inq = 0x34D#12 :: [] ∧
    State.reset.flt = false ∧ State.reset.cfg.oqDepth = none ∧
    (acc 0x34D#12 { State.reset with cfg := { Params.hw with oqDepth := some 5 } }).map (fun t => decide (t.oq.length ≤ 5)) =
      some true ∧
    (acc 0x34D#12 { State.reset with cfg := { Params.hw with oqDepth := some 4 } }).map (fun t => decide (t.oq.length ≤ 4)) =
      some false := by decide
theorem witness_AcceptAndDeliverCommute :
    ({ State.reset with oq := [0x200#10] } : State).oq ≠ [] ∧
    (nextOf (exec (.trimS 0x61#8) { State.reset with oq := [0x200#10] })).isSome = true := by decide
theorem witness_BeatsOnlyAppendOutput : (nextOf (exec (.encSE 0x4D#8) State.reset)).isSome = true := by decide
/-- One offer and one delivery, in both orders. -/
theorem witness_InterleavingDoesNotMatter :
    Move.reset ∉ [Move.accept, .deliver] ∧ Move.reset ∉ [Move.deliver, .accept] ∧
    [Move.accept, .deliver].count .accept = [Move.deliver, .accept].count .accept ∧
    (nextOf (Sys2Proof.core.run 2 { State.reset with inq := [0xA00#12], moves := [.accept, .deliver] })).isSome = true ∧
    (nextOf (Sys2Proof.core.run 2 { State.reset with inq := [0xA00#12], moves := [.deliver, .accept] })).isSome = true := by decide
theorem witness_ClosingBeatEndsMessage :
    (inDec 3#2 1#8 2#8 3#8).Inv ∧ (inDec 3#2 1#8 2#8 3#8).flt = false ∧ (Instr.decSE 0x3D#8).lastBit = true ∧
    (nextOf (exec (.decSE 0x3D#8) (inDec 3#2 1#8 2#8 3#8))).map (·.flt) = some false := by decide
theorem witness_StaleCellsNeverMatter :
    SameButStale (inEnc 1#2 0x4D#8 1#8) (inEnc 1#2 0x4D#8 2#8) ∧
    (nextOf (exec (.encE 0#8) (inEnc 1#2 0x4D#8 1#8))).isSome = true := by decide
theorem witness_FormsLeaveHostSideAlone :
    (nextOf (exec (.rsvS 0#8) { State.reset with inq := [1#12], taken := [0x200#10] })).isSome = true := by decide
theorem witness_EncFrame :
    InForce .enc (inEnc 2#2 1#8 2#8) ∧ (inEnc 2#2 1#8 2#8).gc ≠ 0#2 ∧ (inEnc 2#2 1#8 2#8).gc ≠ 1#2 ∧
    (nextOf (exec (.encS 3#8) (inEnc 2#2 1#8 2#8))).isSome = true ∧
    (nextOf (exec (.encE 3#8) (inEnc 2#2 1#8 2#8))).isSome = true ∧
    (nextOf (exec (.encSE 3#8) (inEnc 2#2 1#8 2#8))).isSome = true := by decide
theorem witness_DecFrame :
    InForce .dec (inDec 3#2 1#8 2#8 3#8) ∧ (inDec 3#2 1#8 2#8 3#8).gc = 3#2 ∧
    (nextOf (exec (.decS 4#8) (inDec 3#2 1#8 2#8 3#8))).isSome = true ∧
    (nextOf (exec (.decE 4#8) (inDec 3#2 1#8 2#8 3#8))).isSome = true ∧
    (nextOf (exec (.decSE 4#8) (inDec 3#2 1#8 2#8 3#8))).isSome = true := by decide
/-- The counter one below its limit, so that `=` does not fault, and at its limit with another character. -/
theorem witness_TrimFrame :
    InForce .trim (inTrim 2) ∧ (inTrim 2).pr ≠ 2 ^ (inTrim 2).cfg.runW - 1 ∧
    (nextOf (exec (.trimS 0x3D#8) (inTrim 2))).isSome = true ∧ (nextOf (exec (.trimE 0x3D#8) (inTrim 3))).isSome = true ∧
    (0x61#8 ≠ 0x3D#8 ∧ (nextOf (exec (.trimSE 0x61#8) (inTrim 3))).isSome = true) := by decide
/-- A closing beat ends the message, and another beat does not. -/
theorem witness_OpenMessageEndsOnlyByClosing :
    (inTrim 0).busy = true ∧ ([Move.accept] : List Move).head? ≠ some .reset ∧
    (nextOf (step { inTrim 0 with moves := [.accept], inq := [0xA00#12] })).map (·.busy) = some false ∧
    (nextOf (step { inTrim 0 with moves := [.accept], inq := [0x961#12] })).map (·.busy) = some true := by decide
theorem witness_GroupCountIsRemainder : State.reset.flt = false ∧ State.reset.busy = false ∧ State.reset.gc = 0#2 := by decide
theorem witness_SpellingsReadBack :
    (2#2) ≠ (3#2) ∧ canonicalBeats 0#2 [0x4D#8, 0x61#8, 0x6E#8] = [0x14D#12, 0x161#12, 0x36E#12] ∧
    splitBeats 0#2 [0x4D#8, 0x61#8, 0x6E#8] = [0x14D#12, 0x161#12, 0x16E#12, 0x200#12] := by decide
/-- V-F1: bubbles among the beats of "Man". -/
theorem witness_EncMessageEmitsENCODE :
    State.reset.Inv ∧ State.reset.busy = false ∧ State.reset.flt = false ∧
    readMessage [0x14D#12, 0x000#12, 0x161#12, 0xC00#12, 0x36E#12] = some (0#2, [0x4D#8, 0x61#8, 0x6E#8]) ∧
    encodeMsg [0x4D#8, 0x61#8, 0x6E#8] = [0x54#8, 0x57#8, 0x46#8, 0x75#8] := by decide
/-- V-D5: "TWE". -/
theorem witness_DecMessageEmitsDECODE :
    State.reset.Inv ∧ State.reset.busy = false ∧ State.reset.flt = false ∧
    readMessage [0x554#12, 0x557#12, 0x745#12] = some (1#2, [0x54#8, 0x57#8, 0x45#8]) ∧
    decodeMsg Params.hw [0x54#8, 0x57#8, 0x45#8] = [0x4D#8, 0x61#8] := by decide
/-- V-R9: "a==b==", with a run counter of 2 bits. -/
theorem witness_TrimMessageEmitsTRIMPAD :
    ({ State.reset with cfg := { Params.hw with runW := 2 } } : State).Inv ∧
    readMessage [0x961#12, 0x93D#12, 0x93D#12, 0x962#12, 0x93D#12, 0xB3D#12] =
      some (2#2, [0x61#8, 0x3D#8, 0x3D#8, 0x62#8, 0x3D#8, 0x3D#8]) ∧
    runsWithin (2 ^ 2 - 1) 0 [0x61#8, 0x3D#8, 0x3D#8, 0x62#8, 0x3D#8, 0x3D#8] = true ∧
    trimMsg [0x61#8, 0x3D#8, 0x3D#8, 0x62#8, 0x3D#8, 0x3D#8] = [0x61#8, 0x3D#8, 0x3D#8, 0x62#8] := by decide
theorem witness_EncodingShape :
    (0x54#8) ∈ encodeMsg [0x4D#8] ∧ (0x54#8) ≠ (0x3D#8) ∧ encodeMsg [] = [] := by decide
/-- "TWFu", "TWE=" and "TQ==". -/
theorem witness_ArgumentsHiddenInPaddedGroups :
    fwd 19#6 = 0x54#8 ∧ fwd 22#6 = 0x57#8 ∧ fwd 5#6 = 0x46#8 ∧ fwd 46#6 = 0x75#8 ∧ fwd 4#6 = 0x45#8 ∧ fwd 16#6 = 0x51#8 := by decide
/-- Room for four beats: the five that `0x34D` would emit do not fit, so it waits. -/
theorem witness_GuardedQueueStaysWithinDepth :
    (nextOf (step { State.reset with
        cfg := { Params.hw with oqDepth := some 4 }, inq := [0x34D#12], moves := [.accept] })).map (·.oq) = some [] ∧
    ({ State.reset with cfg := { Params.hw with oqDepth := some 4 } } : State).oq.length ≤ 4 := by decide

/-! ## A live execution (70_reset_and_hazards.md R245): `ENC.E` is offered, accepted, and its `END` delivered, with no
further input; after that the moves alternate and nothing happens -/

/-- The execution: one beat in, one beat out, then idle. -/
def emptyMessageRun : Execution where
  state
    | 0 => { State.reset with inq := [0x200#12] }
    | 1 => { State.reset with oq := [0x200#10] }
    | _ + 2 => { State.reset with taken := [0x200#10] }
  move k := if k % 2 = 0 then .accept else .deliver
  arriving _ := []

theorem witness_Live : emptyMessageRun.Live where
  follows
    | 0 => ⟨_, rfl, rfl⟩
    | 1 => ⟨_, rfl, rfl⟩
    | k + 2 => by
      refine ⟨{ State.reset with taken := [0x200#10] }, ?_, rfl⟩
      rcases Nat.mod_two_eq_zero_or_one (k + 2) with h | h <;> simp [emptyMessageRun, h] <;> rfl
  acceptFair n _ := ⟨2 * n, by omega, by simp [emptyMessageRun]⟩
  deliverFair n _ := ⟨2 * n + 1, by omega, by simp [emptyMessageRun]⟩

/-- The premises of `Execution.offered_accepted` and of `Execution.emitted_delivered` hold of it. -/
theorem witness_offered_accepted :
    emptyMessageRun.NoResetFrom 0 ∧ emptyMessageRun.NoFaultFrom 0 ∧ emptyMessageRun.FitsFrom 0 ∧
    (emptyMessageRun.state 0).inq = [] ++ 0x200#12 :: [] ∧ (emptyMessageRun.state 1).oq = [] ++ 0x200#10 :: [] := by
  refine ⟨fun k _ => ?_, fun k _ => ?_, Execution.fits_unbounded witness_Live.follows rfl, rfl, rfl⟩
  · simp only [emptyMessageRun]; split <;> decide
  · match k with
    | 0 => rfl
    | 1 => rfl
    | _ + 2 => rfl

/-- In the guarded model the five beats of `0x34D` have no room at depth 4, where `in_ready` shows 0, and have it at depth
5 (R244). -/
theorem test_in_ready_needs_room :
    ({ State.reset with inq := [0x34D#12], cfg := { Params.hw with oqDepth := some 4 } } : State).inReady = false ∧
    ({ State.reset with inq := [0x34D#12], cfg := { Params.hw with oqDepth := some 5 } } : State).inReady = true := by
  decide

/-- With `OQ` full at depth 1, a bubble is ready (it emits nothing), `ENC.E` is not, and is once the `END` before it is
delivered (R244). -/
theorem test_in_ready_after_delivery :
    ({ State.reset with oq := [0x200#10], inq := [0x000#12], cfg := { Params.hw with oqDepth := some 1 } } : State).inReady =
      true ∧
    ({ State.reset with oq := [0x200#10], inq := [0x200#12], cfg := { Params.hw with oqDepth := some 1 } } : State).inReady =
      false ∧
    ({ State.reset with oq := [0x200#10], inq := [0x200#12], cfg := { Params.hw with oqDepth := some 1 } } :
      State).deliver.inReady = true := by
  decide

/-- The premise of `waits_for_ever`, and the hazard it states: three offers at depth 4 leave the beat waiting (R244). -/
theorem witness_waits_for_ever :
    (nextOf (Sys2Proof.core.run 3 { State.reset with
      inq := [0x34D#12], moves := [.accept, .accept, .accept], cfg := { Params.hw with oqDepth := some 4 } })).map
        (fun t => (t.inReady, t.inq, t.oq)) = some (false, [0x34D#12], []) := by
  decide

end Sys2Proof.Tests
end

section
/-! What every step keeps of the invariants of 10_state.md R31, and what follows from them (R31, R32, R35). -/

namespace Sys2Proof.Machine

/-- Settles O14: `State.reset` holds the values of R35, and with no beat offered the port `in_ready` shows 1. -/
theorem resetStateValues : Obligations.ResetStateValues := by
  unfold Obligations.ResetStateValues
  have hready : State.reset.inReady = true := inReady_unbounded (s := State.reset) rfl
  exact ⟨rfl, rfl, rfl, rfl, rfl, rfl, rfl, rfl, rfl, rfl, hready⟩

/-- A state at its reset values meets the invariants, whatever the host holds (R31, R35). -/
theorem inv_resetBlock {s : State} (hcfg : s.cfg.Legal) : s.resetBlock.Inv := by
  refine ⟨?_, ?_, ?_, ?_, ?_, ?_, ?_, Nat.zero_le _, hcfg⟩ <;> simp

/-- Settles O16: `State.reset` is its own RESET, with the legal parameters of R5. -/
theorem resetMeetsInvariants : Obligations.ResetMeetsInvariants :=
  inv_resetBlock (s := State.reset) (by decide)

/-- Fault entry keeps the invariants: it touches only the two items about `FLT` and `FCODE`. -/
theorem inv_raiseFault {s : State} {c : BitVec 2} (hi : s.Inv) (hc : c = rsvopCode ∨ c = runovfCode) :
    (s.raiseFault c).Inv := by
  obtain ⟨hidle, henc, hdec, htrim, -, -, hoq, hpr, hcfg⟩ := hi
  exact ⟨hidle, henc, hdec, htrim, by simp, fun _ => hc, hoq, hpr, hcfg⟩

/-- DELIVER keeps the invariants: what is left in `OQ` was there before. -/
theorem inv_deliver {s : State} (hi : s.Inv) : s.deliver.Inv := by
  cases hq : s.oq with
  | nil => rwa [deliver_nil hq]
  | cons w rest =>
    rw [deliver_cons hq]
    obtain ⟨hidle, henc, hdec, htrim, hcode, hfault, hoq, hpr, hcfg⟩ := hi
    exact ⟨hidle, henc, hdec, htrim, hcode, hfault, fun v hv => hoq v (by simp [hq, hv]), hpr, hcfg⟩

/-- No invariant speaks of the host's side. -/
theorem inv_setHost {s : State} (hi : s.Inv) (ms : List Move) (q : List Beat) :
    ({ s with moves := ms, inq := q } : State).Inv := hi

/-- ACCEPT keeps the invariants: part by part, or by fault entry on the state before the beat. -/
theorem inv_accept {code : BitVec 2} {last keep : Bool} {d : Symbol} {s t : State} (hi : s.Inv)
    (h : accept code last keep d s = .next t) : t.Inv := by
  rcases accept_cases h with ⟨_, rfl⟩ | ⟨_, _, _, rfl⟩ | ⟨_, _, _, _, rfl⟩ | ⟨hf, _, s1, ho, hpart⟩
  · exact hi
  · exact hi
  · exact inv_raiseFault hi (.inl rfl)
  · obtain ⟨hi1, hb1, _⟩ := inv_opening hi hf ho
    rcases hpart with ⟨c, hs, rfl⟩ | ⟨s2, hs, rfl⟩
    · obtain ⟨_, _, _, _, hc⟩ := symbolPart_raised hs
      exact inv_raiseFault hi (.inr hc)
    · obtain ⟨_, _, hb2, _⟩ := symbolPart_done hs
      exact inv_closingPart (inv_symbolPart hi1 hb1 hs) (hb2.trans hb1)

/-- Every form keeps the invariants. -/
theorem inv_exec {i : Instr} {s t : State} (hi : s.Inv) (h : exec i s = .next t) : t.Inv :=
  inv_accept hi ((exec_eq_accept i s).symm.trans h)

/-- Settles O17: each move that `step_cases` allows keeps the invariants. -/
theorem stepKeepsInvariants : Obligations.StepKeepsInvariants := by
  unfold Obligations.StepKeepsInvariants
  intro s t hi h
  rcases step_cases h with ⟨_, rfl⟩ | ⟨ms, _, rfl⟩ | ⟨ms, _, rfl⟩ | ⟨ms, _, rfl⟩ | ⟨ms, w, rest, _, _, _, hx, _⟩
  · exact hi
  · obtain ⟨_, _, _, _, _, _, _, _, hcfg⟩ := hi
    exact inv_resetBlock hcfg
  · exact inv_deliver (inv_setHost hi ms s.inq)
  · exact inv_setHost hi ms s.inq
  · exact inv_exec (inv_setHost hi ms rest) hx

/-- Under the invariants the symbol part finds a cell: an open ENC message holds at most 2 bytes (R31 item 2). -/
theorem symbolPart_ne_stopped {keep : Bool} {d : Symbol} {s : State} (hi : s.Inv) (hb : s.busy = true) (f : Fault) :
    symbolPart keep d s ≠ .stopped f := by
  intro h
  obtain ⟨_, ho, hg⟩ := symbolPart_stopped h
  obtain ⟨_, henc, _⟩ := hi
  have hle := (henc hb ho).1
  rw [hg] at hle
  exact absurd hle (by decide)

/-- Under the invariants every form answers a next state. -/
theorem exec_next_of_inv (i : Instr) {s : State} (hi : s.Inv) : ∃ t, exec i s = .next t := by
  rw [exec_eq_accept]
  obtain ⟨hrefuse, hstop⟩ := accept_stops (code := i.opBits) (last := i.lastBit) (keep := i.keepBit)
    (d := i.dataBits) (s := s)
  cases h : accept i.opBits i.lastBit i.keepBit i.dataBits s with
  | next t => exact ⟨t, rfl⟩
  | fault f =>
    obtain ⟨hf, s1, ho, hs⟩ := hstop f h
    obtain ⟨hi1, hb1, _⟩ := inv_opening hi hf ho
    exact absurd hs (symbolPart_ne_stopped hi1 hb1 f)
  | refused r => exact absurd h (hrefuse r)

/-- Under the invariants an offer answers a next state, whether the beat is taken or waits. -/
theorem offer_next_of_inv {s : State} (hi : s.Inv) : ∃ t, offer s = .next t := by
  cases hr : s.inReady with
  | false => exact ⟨s, offer_waits hr⟩
  | true =>
    cases hq : s.inq with
    | nil => exact ⟨s, by simp [offer, State.fetch, hq]⟩
    | cons w rest =>
      rw [offer_cons hq, if_pos hr]
      exact exec_next_of_inv (decode w) (inv_setHost hi s.moves rest)

/-- Under the invariants a step answers a next state: only an offer could stop. -/
theorem step_next_of_inv {s : State} (hi : s.Inv) : ∃ t, step s = .next t := by
  unfold step
  split
  · exact ⟨s, rfl⟩
  · rename_i m ms _
    cases m with
    | accept => exact offer_next_of_inv (inv_setHost hi ms s.inq)
    | deliver => exact ⟨_, rfl⟩
    | reset => exact ⟨_, rfl⟩

/-- Settles O18: the one stop needs an open ENC message with `GC` = 3, which R31 item 2 excludes. -/
theorem noStopUnderInvariants : Obligations.NoStopUnderInvariants := by
  unfold Obligations.NoStopUnderInvariants
  exact fun s hi => ⟨fun i => exec_next_of_inv i hi, step_next_of_inv hi⟩

/-- An idle, unfaulted state that meets the invariants is between messages (R31 items 1 and 6, R32). -/
theorem betweenMessages_of_inv {s : State} (hi : s.Inv) (hf : s.flt = false) (hb : s.busy = false) :
    s.BetweenMessages := by
  obtain ⟨hidle, _, _, _, hcode, _⟩ := hi
  obtain ⟨hg, hp⟩ := hidle hb
  exact ⟨hf, hcode hf, hb, hg, hp⟩

/-- A closing beat that is accepted and does not fault ends the message (40_framing.md R116). -/
theorem accept_last_busy {code : BitVec 2} {keep : Bool} {d : Symbol} {s t : State} (hf : s.flt = false)
    (h : accept code true keep d s = .next t) (ht : t.flt = false) : t.busy = false := by
  rcases accept_cases h with ⟨hfault, _⟩ | ⟨_, hlast, _⟩ | ⟨_, _, _, _, rfl⟩ | ⟨_, _, s1, _, hpart⟩
  · simp [hf] at hfault
  · cases hlast
  · simp at ht
  · rcases hpart with ⟨c, _, rfl⟩ | ⟨s2, _, rfl⟩
    · simp at ht
    · obtain ⟨_, _, _, _, _, _, _, _, _, _, hbusy⟩ := closingPart_fields true s2
      simpa using hbusy

/-- Settles O43: the closing beat clears `BUSY`, and the invariants it keeps give the other reset values. -/
theorem closingBeatEndsMessage : Obligations.ClosingBeatEndsMessage := by
  unfold Obligations.ClosingBeatEndsMessage
  intro i s t hi hf hlast h ht
  have hbusy : t.busy = false := by
    rw [exec_eq_accept, hlast] at h
    exact accept_last_busy hf h ht
  exact betweenMessages_of_inv (inv_exec hi h) ht hbusy

end Sys2Proof.Machine
end

section
/-! What the forms leave alone: the host's side and the parameters (10_state.md R20). -/

namespace Sys2Proof.Machine

/-- ACCEPT leaves the schedule alone: a beat that does not look at it gives back the one it was given. -/
theorem accept_moves {code : BitVec 2} {last keep : Bool} {d : Symbol} {s t : State}
    (h : accept code last keep d s = .next t) : t.moves = s.moves := by
  have hback := accept_setMoves code last keep d s s.moves
  simp only [h] at hback
  have ht : t = { t with moves := s.moves } := Host.Outcome.next.inj hback
  rw [ht]

/-- Settles O45: ACCEPT leaves the producer's beats, the beats taken, the parameters and the schedule alone. -/
theorem formsLeaveHostSideAlone : Obligations.FormsLeaveHostSideAlone := by
  unfold Obligations.FormsLeaveHostSideAlone
  intro i s t h
  rw [exec_eq_accept] at h
  obtain ⟨hinq, htaken, hcfg, _⟩ := accept_channels h
  exact ⟨hinq, accept_moves h, htaken, hcfg⟩

end Sys2Proof.Machine
end

section
/-! The symbol part and ACCEPT in equations, one per case: what later proofs run a beat with. -/

namespace Sys2Proof.Machine

variable {s : State}

/-- `ENC_S` with two bytes held completes the group (41_encode.md R134). -/
theorem encTake_full (d : Symbol) (h : s.gc = 2#2) :
    encTake d s = .done ((s.emitSyms (encGroup s.gb0 s.gb1 d .zero)).setGc 0#2) := by
  simp [encTake, h]

/-- `ENC_S` with fewer bytes held stores the byte (41_encode.md R134). -/
theorem encTake_partial (d : Symbol) (h2 : s.gc ≠ 2#2) (h3 : s.gc ≠ 3#2) :
    encTake d s = .done ((s.setCell s.gc d).setGc (s.gc + 1#2)) := by
  simp [encTake, store, State.storeSymbol, h2, h3]

/-- `DEC_S` with three characters held completes the group (42_decode.md R158). -/
theorem decTake_full (c : Symbol) (h : s.gc = 3#2) :
    decTake c s = .done ((s.emitSyms (decGroup s.cfg s.gb0 s.gb1 s.gb2 c)).setGc 0#2) := by
  simp [decTake, h]

/-- `DEC_S` with fewer characters held stores the character (42_decode.md R158). -/
theorem decTake_partial (c : Symbol) (h3 : s.gc ≠ 3#2) :
    decTake c s = .done ((s.setCell s.gc c).setGc (s.gc + 1#2)) := by
  simp [decTake, store, State.storeSymbol, h3]

/-- `TRIM_S` raises the run overflow on an `=` with the counter full (43_trimpadding.md R184). -/
theorem trimTake_overflow (h : s.pr = s.cfg.runMax) : trimTake padChar s = .raised runovfCode := by
  simp [trimTake, h]

/-- `TRIM_S` holds back an `=` while the counter has room (43_trimpadding.md R183). -/
theorem trimTake_pad (h : s.pr ≠ s.cfg.runMax) : trimTake padChar s = .done (s.setPr (s.pr + 1)) := by
  simp [trimTake, h]

/-- `TRIM_S` replays the held run before another character (43_trimpadding.md R183). -/
theorem trimTake_other {c : Symbol} (h : c ≠ padChar) :
    trimTake c s = .done ((s.emitSyms (List.replicate s.pr padChar ++ [c])).setPr 0) := by
  simp [trimTake, h]

variable {code : BitVec 2} {last keep : Bool} {d : Symbol}

/-- A faulted block takes no beat (60_exceptions.md R203). -/
theorem accept_faulted (hf : s.flt = true) : accept code last keep d s = .next s := by
  simp [accept, hf]

/-- A bubble changes nothing (40_framing.md R111). -/
theorem accept_bubble : accept code false false d s = .next s := by
  simp [accept]

/-- The reserved code faults when it would open a message (40_framing.md R113). -/
theorem accept_reserved (hf : s.flt = false) (hlk : last = true ∨ keep = true) (ho : opening code s = none) :
    accept code last keep d s = .next (s.raiseFault rsvopCode) := by
  rcases hlk with rfl | rfl <;> simp [accept, hf, ho]

/-- A symbol part that raises abandons the beat (60_exceptions.md R202). -/
theorem accept_raised {s1 : State} {c : BitVec 2} (hf : s.flt = false) (hlk : last = true ∨ keep = true)
    (ho : opening code s = some s1) (hs : symbolPart keep d s1 = .raised c) :
    accept code last keep d s = .next (s.raiseFault c) := by
  rcases hlk with rfl | rfl <;> simp [accept, hf, ho, hs]

/-- A beat that is processed ends with its closing part (40_framing.md R110). -/
theorem accept_done {s1 s2 : State} (hf : s.flt = false) (hlk : last = true ∨ keep = true)
    (ho : opening code s = some s1) (hs : symbolPart keep d s1 = .done s2) :
    accept code last keep d s = .next (closingPart last s2) := by
  rcases hlk with rfl | rfl <;> simp [accept, hf, ho, hs]

end Sys2Proof.Machine
end

section
/-! The stale cells of `GB` (10_state.md R26): each part of ACCEPT takes states that agree but for them to such states. -/

namespace Sys2Proof.Machine

variable {s s' : State}

/-- States that agree but for stale cells, with the three cells of the second named. -/
theorem exists_cells_of_sameButStale (h : SameButStale s s') :
    ∃ a b c, s' = { s with gb0 := a, gb1 := b, gb2 := c } ∧
      (1#2 ≤ s.gc → a = s.gb0) ∧ (2#2 ≤ s.gc → b = s.gb1) ∧ (3#2 ≤ s.gc → c = s.gb2) :=
  ⟨s'.gb0, s'.gb1, s'.gb2, h⟩

/-- Once the group is empty, every cell is stale. -/
theorem sameButStale_emptied (h : SameButStale s s') (ds : List Symbol) :
    SameButStale ((s.emitSyms ds).setGc 0#2) ((s'.emitSyms ds).setGc 0#2) := by
  obtain ⟨a, b, c, rfl, _⟩ := exists_cells_of_sameButStale h
  exact ⟨rfl, by simp, by simp, by simp⟩

/-- A symbol stored in both states makes cell `GC` agree, so that the cells below the new count do. -/
theorem sameButStale_stored (h : SameButStale s s') (d : Symbol) (hg : s.gc ≠ 3#2) :
    SameButStale ((s.setCell s.gc d).setGc (s.gc + 1#2)) ((s'.setCell s'.gc d).setGc (s'.gc + 1#2)) := by
  obtain ⟨a, b, c, rfl, h0, h1, _⟩ := exists_cells_of_sameButStale h
  rcases bits2_cases s.gc with hgc | hgc | hgc | hgc
  · exact ⟨by simp [State.setCell, State.setGc], by simp [hgc], by simp [hgc], by simp [hgc]⟩
  · have ha : a = s.gb0 := h0 (by simp [hgc])
    exact ⟨by simp [State.setCell, State.setGc], by simp [ha], by simp [hgc], by simp [hgc]⟩
  · have ha : a = s.gb0 := h0 (by simp [hgc])
    have hb : b = s.gb1 := h1 (by simp [hgc])
    exact ⟨by simp [State.setCell, State.setGc], by simp [ha], by simp [hb], by simp [hgc]⟩
  · exact absurd hgc hg

/-- The opening part reads no cell. -/
theorem sameButStale_opening {code : BitVec 2} {s1 : State} (h : SameButStale s s') (ho : opening code s = some s1) :
    ∃ s1', opening code s' = some s1' ∧ SameButStale s1 s1' := by
  obtain ⟨a, b, c, rfl, hcells⟩ := exists_cells_of_sameButStale h
  rcases opening_eq_some ho with ⟨hb, rfl⟩ | ⟨hb, o, rfl, rfl⟩
  · exact ⟨_, opening_busy hb, rfl, hcells⟩
  · exact ⟨_, opening_idle o hb, rfl, hcells⟩

/-- `ENC_S` reads cells 0 and 1, and only where both are filled. -/
theorem sameButStale_encTake {d : Symbol} {t : State} (h : SameButStale s s') (ht : encTake d s = .done t) :
    ∃ t', encTake d s' = .done t' ∧ SameButStale t t' := by
  have hgc : s'.gc = s.gc := by rw [h.1]
  rcases encTake_cases d s with ⟨h2, hs⟩ | ⟨h2, h3, hs⟩ | ⟨_, hs⟩ <;> rw [hs] at ht <;> cases ht
  · have ⟨_, h0, h1, _⟩ := h
    have hs' := encTake_full d (hgc.trans h2)
    rw [h0 (by simp [h2]), h1 (by simp [h2])] at hs'
    exact ⟨_, hs', sameButStale_emptied h _⟩
  · exact ⟨_, encTake_partial d (by rwa [hgc]) (by rwa [hgc]), sameButStale_stored h d h3⟩

/-- `DEC_S` reads the three cells, and only where all are filled. -/
theorem sameButStale_decTake {c : Symbol} {t : State} (h : SameButStale s s') (ht : decTake c s = .done t) :
    ∃ t', decTake c s' = .done t' ∧ SameButStale t t' := by
  have hgc : s'.gc = s.gc := by rw [h.1]
  have hcfg : s'.cfg = s.cfg := by rw [h.1]
  rcases decTake_cases c s with ⟨h3, hs⟩ | ⟨h3, hs⟩ <;> rw [hs] at ht <;> cases ht
  · have ⟨_, h0, h1, h2⟩ := h
    have hs' := decTake_full c (hgc.trans h3)
    rw [hcfg, h0 (by simp [h3]), h1 (by simp [h3]), h2 (by simp [h3])] at hs'
    exact ⟨_, hs', sameButStale_emptied h _⟩
  · exact ⟨_, decTake_partial c (by rwa [hgc]), sameButStale_stored h c h3⟩

/-- `TRIM_S` reads no cell. -/
theorem sameButStale_trimTake {c : Symbol} {t : State} (h : SameButStale s s') (ht : trimTake c s = .done t) :
    ∃ t', trimTake c s' = .done t' ∧ SameButStale t t' := by
  obtain ⟨x, y, z, rfl, hcells⟩ := exists_cells_of_sameButStale h
  rcases trimTake_cases c s with ⟨_, _, hs⟩ | ⟨rfl, hp, hs⟩ | ⟨hc, hs⟩ <;> rw [hs] at ht <;> cases ht
  · exact ⟨_, trimTake_pad hp, rfl, hcells⟩
  · exact ⟨_, trimTake_other hc, rfl, hcells⟩

/-- A symbol taken in one state is taken in the other. -/
theorem sameButStale_symbolPart {keep : Bool} {d : Symbol} {t : State} (h : SameButStale s s')
    (ht : symbolPart keep d s = .done t) : ∃ t', symbolPart keep d s' = .done t' ∧ SameButStale t t' := by
  have hop : s'.op = s.op := by rw [h.1]
  cases keep with
  | false =>
    rw [symbolPart_none] at ht
    cases ht
    exact ⟨s', symbolPart_none d s', h⟩
  | true =>
    cases ho : s.op with
    | enc =>
      rw [symbolPart_enc d ho] at ht
      rw [symbolPart_enc d (hop.trans ho)]
      exact sameButStale_encTake h ht
    | dec =>
      rw [symbolPart_dec d ho] at ht
      rw [symbolPart_dec d (hop.trans ho)]
      exact sameButStale_decTake h ht
    | trim =>
      rw [symbolPart_trim d ho] at ht
      rw [symbolPart_trim d (hop.trans ho)]
      exact sameButStale_trimTake h ht

/-- The run overflow is raised in both states: it rests on `PR`. -/
theorem sameButStale_symbolPart_raised {keep : Bool} {d : Symbol} {c : BitVec 2} (h : SameButStale s s')
    (hs : symbolPart keep d s = .raised c) : symbolPart keep d s' = .raised c := by
  obtain ⟨rfl, ho, rfl, hp, rfl⟩ := symbolPart_raised hs
  have hop : s'.op = .trim := by rw [h.1]; exact ho
  have hpr : s'.pr = s'.cfg.runMax := by rw [h.1]; exact hp
  rw [symbolPart_trim _ hop]
  exact trimTake_overflow hpr

/-- Fault entry writes no cell. -/
theorem sameButStale_raiseFault (h : SameButStale s s') (c : BitVec 2) :
    SameButStale (s.raiseFault c) (s'.raiseFault c) := by
  obtain ⟨x, y, z, rfl, hcells⟩ := exists_cells_of_sameButStale h
  exact ⟨rfl, hcells⟩

/-- `ENC_E` reads filled cells only, so it emits the same symbols. -/
theorem encClose_sameButStale (h : SameButStale s s') :
    ∃ ds : List Symbol, encClose s = (s.emitSyms ds).setGc 0#2 ∧ encClose s' = (s'.emitSyms ds).setGc 0#2 := by
  obtain ⟨heq, h0, h1, _⟩ := h
  have hgc : s'.gc = s.gc := by rw [heq]
  unfold encClose
  rw [hgc]
  split
  · rename_i hg
    rw [h0 (by simp [hg])]
    exact ⟨_, rfl, rfl⟩
  · split
    · rename_i hg
      rw [h0 (by simp [hg]), h1 (by simp [hg])]
      exact ⟨_, rfl, rfl⟩
    · exact ⟨[], by rw [emitSyms_nil], by rw [emitSyms_nil]⟩

/-- `DEC_E` reads filled cells only, so it emits the same symbols. -/
theorem decClose_sameButStale (h : SameButStale s s') :
    ∃ ds : List Symbol, decClose s = (s.emitSyms ds).setGc 0#2 ∧ decClose s' = (s'.emitSyms ds).setGc 0#2 := by
  obtain ⟨heq, h0, h1, h2⟩ := h
  have hgc : s'.gc = s.gc := by rw [heq]
  have hcfg : s'.cfg = s.cfg := by rw [heq]
  unfold decClose
  rw [hgc, hcfg]
  split
  · rename_i hg
    rw [h0 (by simp [hg])]
    exact ⟨_, rfl, rfl⟩
  · split
    · rename_i hg
      rw [h0 (by simp [hg]), h1 (by simp [hg])]
      exact ⟨_, rfl, rfl⟩
    · split
      · rename_i hg
        rw [h0 (by simp [hg]), h1 (by simp [hg]), h2 (by simp [hg])]
        exact ⟨_, rfl, rfl⟩
      · exact ⟨[], by rw [emitSyms_nil], by rw [emitSyms_nil]⟩

/-- A closing rule takes states that agree but for stale cells to such states. -/
theorem sameButStale_closeGroup (h : SameButStale s s') : SameButStale (closeGroup s) (closeGroup s') := by
  have hop : s'.op = s.op := by rw [h.1]
  unfold closeGroup
  rw [hop]
  cases s.op with
  | enc =>
    obtain ⟨ds, hs, hs'⟩ := encClose_sameButStale h
    simp only [hs, hs']
    exact sameButStale_emptied h ds
  | dec =>
    obtain ⟨ds, hs, hs'⟩ := decClose_sameButStale h
    simp only [hs, hs']
    exact sameButStale_emptied h ds
  | trim =>
    obtain ⟨x, y, z, rfl, hcells⟩ := exists_cells_of_sameButStale h
    exact ⟨rfl, hcells⟩

/-- The closing part takes states that agree but for stale cells to such states. -/
theorem sameButStale_closingPart (last : Bool) (h : SameButStale s s') :
    SameButStale (closingPart last s) (closingPart last s') := by
  cases last with
  | false => exact h
  | true =>
    obtain ⟨a, b, c, hclose, hcells⟩ := exists_cells_of_sameButStale (sameButStale_closeGroup h)
    simp only [closingPart, if_true, hclose]
    exact ⟨rfl, hcells⟩

/-- ACCEPT takes states that agree but for stale cells to such states. -/
theorem sameButStale_accept {code : BitVec 2} {last keep : Bool} {d : Symbol} {t : State} (h : SameButStale s s')
    (ht : accept code last keep d s = .next t) : ∃ t', accept code last keep d s' = .next t' ∧ SameButStale t t' := by
  have hflt : s'.flt = s.flt := by rw [h.1]
  have hbusy : s'.busy = s.busy := by rw [h.1]
  rcases accept_cases ht with ⟨hf, rfl⟩ | ⟨hf, rfl, rfl, rfl⟩ | ⟨hf, hlk, hb, rfl, rfl⟩ | ⟨hf, hlk, s1, ho, hpart⟩
  · exact ⟨s', accept_faulted (hflt.trans hf), h⟩
  · exact ⟨s', accept_bubble, h⟩
  · have ho' : opening 3#2 s' = none := opening_eq_none.mpr ⟨hbusy.trans hb, rfl⟩
    exact ⟨_, accept_reserved (hflt.trans hf) hlk ho', sameButStale_raiseFault h _⟩
  · obtain ⟨s1', ho', h1⟩ := sameButStale_opening h ho
    rcases hpart with ⟨c, hs, rfl⟩ | ⟨s2, hs, rfl⟩
    · have hs' := sameButStale_symbolPart_raised h1 hs
      exact ⟨_, accept_raised (hflt.trans hf) hlk ho' hs', sameButStale_raiseFault h c⟩
    · obtain ⟨s2', hs', h2⟩ := sameButStale_symbolPart h1 hs
      exact ⟨_, accept_done (hflt.trans hf) hlk ho' hs', sameButStale_closingPart last h2⟩

/-- Settles O44: every form is ACCEPT of its fields, each of whose parts reads filled cells only. -/
theorem staleCellsNeverMatter : Obligations.StaleCellsNeverMatter := by
  unfold Obligations.StaleCellsNeverMatter
  intro i s s' t hs h
  rw [exec_eq_accept] at h ⊢
  exact sameButStale_accept hs h

end Sys2Proof.Machine
end

section
/-! The group count over a run of symbols (10_state.md R27). -/

namespace Sys2Proof.Machine

/-- A block that collects groups of `n` symbols under operation `o`: no fault, the operation in force, and a count that
`n` bounds. -/
def Collecting (o : Op) (n : Nat) (s : State) : Prop := s.flt = false ∧ InForce o s ∧ s.gc.toNat < n

/-- The block has counted one symbol on: under the same operation, with the count raised modulo the size of a group. -/
def CountsOn (o : Op) (n : Nat) (s t : State) : Prop :=
  t.flt = false ∧ t.op = o ∧ t.gc.toNat = (s.gc.toNat + 1) % n

/-- A block that counted on goes on collecting. -/
theorem collecting_of_countsOn {o : Op} {n : Nat} {s t : State} (hn : 0 < n) (h : CountsOn o n s t) :
    Collecting o n t := by
  obtain ⟨hf, ho, hg⟩ := h
  exact ⟨hf, .inr ho, hg ▸ Nat.mod_lt _ hn⟩

/-- A symbol beat written for the operation in force is its symbol part under the open message. -/
theorem exec_symbol_inForce {o : Op} {i : Instr} {s t : State} (hcode : i.opBits = o.code) (hlast : i.lastBit = false)
    (hkeep : i.keepBit = true) (hf : s.flt = false) (h : InForce o s)
    (hs : symbolPart true i.dataBits { s with busy := true, op := o } = .done t) : exec i s = .next t := by
  rw [exec_eq_accept, hcode, hlast, hkeep]
  exact accept_done hf (.inr rfl) (opening_inForce h) hs

/-- Counting a stored symbol loses no carry. -/
theorem toNat_add_one_of_ne_three {g : BitVec 2} (h : g ≠ 3#2) : (g + 1#2).toNat = g.toNat + 1 := by
  revert g; decide

/-- `ENC.S` counts on modulo 3 (41_encode.md R134). -/
theorem exec_encS_countsOn {s : State} (d : Symbol) (h : Collecting .enc 3 s) :
    ∃ t, exec (.encS d) s = .next t ∧ CountsOn .enc 3 s t := by
  obtain ⟨hf, hforce, hlt⟩ := h
  by_cases h2 : s.gc = 2#2
  · exact ⟨_, exec_symbol_inForce rfl rfl rfl hf hforce (encTake_full d h2), hf, rfl, by simp [h2]⟩
  · have h3 : s.gc ≠ 3#2 := by intro hg; simp [hg] at hlt
    have hne : s.gc.toNat ≠ 2 := fun hg => h2 (BitVec.eq_of_toNat_eq hg)
    have hcount : (s.gc + 1#2).toNat = (s.gc.toNat + 1) % 3 := by rw [toNat_add_one_of_ne_three h3]; omega
    exact ⟨_, exec_symbol_inForce rfl rfl rfl hf hforce (encTake_partial d h2 h3), hf, rfl, hcount⟩

/-- `DEC.S` counts on modulo 4 (42_decode.md R158). -/
theorem exec_decS_countsOn {s : State} (c : Symbol) (h : Collecting .dec 4 s) :
    ∃ t, exec (.decS c) s = .next t ∧ CountsOn .dec 4 s t := by
  obtain ⟨hf, hforce, _⟩ := h
  by_cases h3 : s.gc = 3#2
  · exact ⟨_, exec_symbol_inForce rfl rfl rfl hf hforce (decTake_full c h3), hf, rfl, by simp [h3]⟩
  · have hcount : (s.gc + 1#2).toNat = (s.gc.toNat + 1) % 4 := BitVec.toNat_add s.gc 1#2
    exact ⟨_, exec_symbol_inForce rfl rfl rfl hf hforce (decTake_partial c h3), hf, rfl, hcount⟩

/-- Encoded beats are accepted form by form. -/
theorem acceptBeats_encode_cons {i : Instr} {ws : List Beat} {s t : State} (h : exec i s = .next t) :
    acceptBeats (encode i :: ws) s = acceptBeats ws t := by
  obtain ⟨hop, hlast, hkeep, hdata⟩ := packBeat_fields i.opBits i.lastBit i.keepBit i.dataBits
  have hbeat : exec (decode (encode i)) s = .next t := by
    rw [exec_decode, encode, hop, hlast, hkeep, hdata, ← exec_eq_accept, h]
  simp only [acceptBeats, hbeat]

/-- If every symbol beat counts on modulo `n`, a list of them adds its length modulo `n`. -/
theorem acceptBeats_count {o : Op} {n : Nat} {form : Symbol → Instr}
    (hform : ∀ (s : State) (d : Symbol), Collecting o n s → ∃ t, exec (form d) s = .next t ∧ CountsOn o n s t) :
    ∀ (m : List Symbol) (s : State), Collecting o n s →
      ∃ t, acceptBeats (m.map fun d => encode (form d)) s = .next t ∧ t.gc.toNat = (s.gc.toNat + m.length) % n := by
  intro m
  induction m with
  | nil =>
    rintro s ⟨_, _, hlt⟩
    exact ⟨s, rfl, (Nat.mod_eq_of_lt hlt).symm⟩
  | cons d m ih =>
    intro s hs
    have ⟨_, _, hlt⟩ := hs
    obtain ⟨t, hx, hcount⟩ := hform s d hs
    obtain ⟨t', hrun, hg'⟩ := ih t (collecting_of_countsOn (Nat.zero_lt_of_lt hlt) hcount)
    obtain ⟨_, _, hg⟩ := hcount
    refine ⟨t', (acceptBeats_encode_cons hx).trans hrun, ?_⟩
    calc t'.gc.toNat = ((s.gc.toNat + 1) % n + m.length) % n := by rw [hg', hg]
      _ = (s.gc.toNat + (d :: m).length) % n := by
        rw [Nat.mod_add_mod, List.length_cons, Nat.add_assoc, Nat.add_comm 1]

/-- Settles O50, by induction on the symbols: each beat counts on, from a count of 0. -/
theorem groupCountIsRemainder : Obligations.GroupCountIsRemainder := by
  unfold Obligations.GroupCountIsRemainder
  intro s m hf hb hg
  have hzero : s.gc.toNat = 0 := by rw [hg]; rfl
  have henc := acceptBeats_count (fun s d => exec_encS_countsOn (s := s) d) m s ⟨hf, .inl hb, by omega⟩
  have hdec := acceptBeats_count (fun s c => exec_decS_countsOn (s := s) c) m s ⟨hf, .inl hb, by omega⟩
  rw [hzero, Nat.zero_add] at henc hdec
  exact ⟨henc, hdec⟩

end Sys2Proof.Machine
end

section
/-! The two tables (20_memory.md R54, R55): each piece in numbers, and that they undo each other (R58). -/

namespace Sys2Proof.Machine

variable {i : Sextet} {c : Symbol} {p : Params}

/-- Sextets 0 to 25 are the letters 'A' to 'Z' (20_memory.md R55). -/
theorem fwd_upper (h : i.toNat ≤ 25) : (fwd i).toNat = 0x41 + i.toNat := by
  have h26 : i < 26#6 := by bv_omega
  simp only [fwd, h26, if_true]
  bv_omega

/-- Sextets 26 to 51 are the letters 'a' to 'z' (20_memory.md R55). -/
theorem fwd_lower (h : 26 ≤ i.toNat ∧ i.toNat ≤ 51) : (fwd i).toNat = 0x61 + (i.toNat - 26) := by
  have h26 : ¬ i < 26#6 := by bv_omega
  have h52 : i < 52#6 := by bv_omega
  simp only [fwd, h26, h52, if_true, if_false]
  bv_omega

/-- Sextets 52 to 61 are the digits (20_memory.md R55). -/
theorem fwd_digit (h : 52 ≤ i.toNat ∧ i.toNat ≤ 61) : (fwd i).toNat = 0x30 + (i.toNat - 52) := by
  have h26 : ¬ i < 26#6 := by bv_omega
  have h52 : ¬ i < 52#6 := by bv_omega
  have h62 : i < 62#6 := by bv_omega
  simp only [fwd, h26, h52, h62, if_true, if_false]
  bv_omega

/-- Settles O5: one lemma per range; 62 and 63 are evaluated. -/
theorem forwardTableFollowsAlphabet : Obligations.ForwardTableFollowsAlphabet := by
  unfold Obligations.ForwardTableFollowsAlphabet
  intro i
  refine ⟨fwd_upper, fwd_lower, fwd_digit, fun h => ?_, fun h => ?_⟩
  · obtain rfl : i = 62#6 := BitVec.eq_of_toNat_eq h
    decide
  · obtain rfl : i = 63#6 := BitVec.eq_of_toNat_eq h
    decide

/-- The letters 'A' to 'Z' stand for 0 to 25 (20_memory.md R54). -/
theorem rev_upper (h : 0x41 ≤ c.toNat ∧ c.toNat ≤ 0x5A) : (rev p c).toNat = c.toNat - 0x41 := by
  have hU : 0x41#8 ≤ c ∧ c ≤ 0x5A#8 := by bv_omega
  simp only [rev, hU, and_self, if_true]
  bv_omega

/-- The letters 'a' to 'z' stand for 26 to 51 (20_memory.md R54). -/
theorem rev_lower (h : 0x61 ≤ c.toNat ∧ c.toNat ≤ 0x7A) : (rev p c).toNat = c.toNat - 0x61 + 26 := by
  have hU : ¬(0x41#8 ≤ c ∧ c ≤ 0x5A#8) := by bv_omega
  have hL : 0x61#8 ≤ c ∧ c ≤ 0x7A#8 := by bv_omega
  rw [rev, if_neg hU, if_pos hL]
  bv_omega

/-- The digits stand for 52 to 61 (20_memory.md R54). -/
theorem rev_digit (h : 0x30 ≤ c.toNat ∧ c.toNat ≤ 0x39) : (rev p c).toNat = c.toNat - 0x30 + 52 := by
  have hU : ¬(0x41#8 ≤ c ∧ c ≤ 0x5A#8) := by bv_omega
  have hL : ¬(0x61#8 ≤ c ∧ c ≤ 0x7A#8) := by bv_omega
  have hD : 0x30#8 ≤ c ∧ c ≤ 0x39#8 := by bv_omega
  rw [rev, if_neg hU, if_neg hL, if_pos hD]
  bv_omega

/-- '+' stands for 62 (20_memory.md R54). -/
theorem rev_plus : rev p 0x2B#8 = 62#8 := rfl

/-- '/' stands for 63 (20_memory.md R54). -/
theorem rev_slash : rev p 0x2F#8 = 63#8 := rfl

/-- '=' stands for the argument `PADVAL` (20_memory.md R54). -/
theorem rev_pad : rev p padChar = p.padval := rfl

/-- The characters of the alphabet, by their codes (20_memory.md R55, R56). -/
def InAlphabet (c : Symbol) : Prop :=
  (0x41 ≤ c.toNat ∧ c.toNat ≤ 0x5A) ∨ (0x61 ≤ c.toNat ∧ c.toNat ≤ 0x7A) ∨ (0x30 ≤ c.toNat ∧ c.toNat ≤ 0x39) ∨
    c = 0x2B#8 ∨ c = 0x2F#8

/-- Every other code but '=' gives `SENTINEL` (20_memory.md R54). -/
theorem rev_other (h : ¬ InAlphabet c) (hpad : c ≠ padChar) : rev p c = p.sentinel := by
  simp only [InAlphabet, not_or] at h
  obtain ⟨hU, hL, hD, hplus, hslash⟩ := h
  have hU' : ¬(0x41#8 ≤ c ∧ c ≤ 0x5A#8) := by bv_omega
  have hL' : ¬(0x61#8 ≤ c ∧ c ≤ 0x7A#8) := by bv_omega
  have hD' : ¬(0x30#8 ≤ c ∧ c ≤ 0x39#8) := by bv_omega
  rw [rev, if_neg hU', if_neg hL', if_neg hD', if_neg hplus, if_neg hslash, if_neg hpad]

/-- Settles O6: one lemma per line of R54. -/
theorem reverseTableFollowsAlphabet : Obligations.ReverseTableFollowsAlphabet := by
  unfold Obligations.ReverseTableFollowsAlphabet
  refine ⟨fun p c => ⟨rev_upper, rev_lower, rev_digit, ?_, ?_, ?_, ?_⟩, rfl, rfl⟩
  · rintro rfl; exact rev_plus
  · rintro rfl; exact rev_slash
  · rintro rfl; exact rev_pad
  · rintro ⟨hU, hL, hD, hplus, hslash, hpad⟩
    exact rev_other (by simp only [InAlphabet, not_or]; exact ⟨hU, hL, hD, hplus, hslash⟩) hpad

/-- The five ranges of the forward table cover every sextet (20_memory.md R55). -/
theorem sextet_ranges (i : Sextet) :
    i.toNat ≤ 25 ∨ (26 ≤ i.toNat ∧ i.toNat ≤ 51) ∨ (52 ≤ i.toNat ∧ i.toNat ≤ 61) ∨ i = 62#6 ∨ i = 63#6 := by
  bv_omega

/-- The reverse table undoes the forward one (20_memory.md R58 item 1). -/
theorem rev_fwd (p : Params) (i : Sextet) : rev p (fwd i) = i.setWidth 8 := by
  apply BitVec.eq_of_toNat_eq
  rw [BitVec.toNat_setWidth_of_le (by decide)]
  rcases sextet_ranges i with h | h | h | rfl | rfl
  · have hf := fwd_upper h
    rw [rev_upper (by omega)]
    omega
  · have hf := fwd_lower h
    rw [rev_lower (by omega)]
    omega
  · have hf := fwd_digit h
    rw [rev_digit (by omega)]
    omega
  · rfl
  · rfl

/-- The forward table undoes the reverse one on the alphabet (20_memory.md R58 item 2). -/
theorem fwd_rev (p : Params) (h : InAlphabet c) : fwd ((rev p c).setWidth 6) = c := by
  have hc := c.isLt
  rcases h with h | h | h | rfl | rfl
  · have hr : ((rev p c).setWidth 6).toNat = c.toNat - 0x41 := by
      rw [BitVec.toNat_setWidth, rev_upper h]; omega
    have hf := fwd_upper (i := (rev p c).setWidth 6) (by omega)
    exact BitVec.eq_of_toNat_eq (by omega)
  · have hr : ((rev p c).setWidth 6).toNat = c.toNat - 0x61 + 26 := by
      rw [BitVec.toNat_setWidth, rev_lower h]; omega
    have hf := fwd_lower (i := (rev p c).setWidth 6) (by omega)
    exact BitVec.eq_of_toNat_eq (by omega)
  · have hr : ((rev p c).setWidth 6).toNat = c.toNat - 0x30 + 52 := by
      rw [BitVec.toNat_setWidth, rev_digit h]; omega
    have hf := fwd_digit (i := (rev p c).setWidth 6) (by omega)
    exact BitVec.eq_of_toNat_eq (by omega)
  · rfl
  · rfl

/-- The forward table repeats no character (20_memory.md R58 item 3). -/
theorem fwd_injective : Function.Injective fwd := by
  intro i j h
  have hw : i.setWidth 8 = j.setWidth 8 := by rw [← rev_fwd Params.hw, ← rev_fwd Params.hw, h]
  simpa using congrArg (BitVec.setWidth 6) hw

/-- What the reverse table gives for a character of the forward one is a sextet (20_memory.md R58 item 4). -/
theorem rev_fwd_le (p : Params) (i : Sextet) : rev p (fwd i) ≤ 63#8 := by
  rw [rev_fwd]
  bv_omega

/-- The reverse table gives a sextet for the alphabet, and for '=' if `PADVAL` is one (20_memory.md R58 item 4). -/
theorem rev_le_iff (hp : p.Legal) (c : Symbol) :
    rev p c ≤ 63#8 ↔ (∃ i, fwd i = c) ∨ (c = padChar ∧ p.padval ≤ 63#8) := by
  constructor
  · intro h
    by_cases halpha : InAlphabet c
    · exact .inl ⟨_, fwd_rev p halpha⟩
    by_cases hpad : c = padChar
    · subst hpad
      exact .inr ⟨rfl, h⟩
    · obtain ⟨hsentinel, _⟩ := hp
      rw [rev_other halpha hpad] at h
      exact absurd h (BitVec.not_le.mpr hsentinel)
  · rintro (⟨i, rfl⟩ | ⟨rfl, h⟩)
    · exact rev_fwd_le p i
    · exact h

/-- Settles O7: the five laws, the second from the first. -/
theorem tablesAreInverse : Obligations.TablesAreInverse := by
  unfold Obligations.TablesAreInverse
  intro p hp
  have ⟨hsentinel, _⟩ := hp
  refine ⟨rev_fwd p, ?_, ⟨fun i j h => fwd_injective h, fwd_ne_pad⟩, rev_le_iff hp, hsentinel⟩
  rintro c ⟨i, rfl⟩
  rw [rev_fwd, BitVec.setWidth_setWidth_of_le _ (by decide), BitVec.setWidth_eq]

end Sys2Proof.Machine
end

section
/-! The output side (20_memory.md R70 to R72): what a delivery does, and that the block only appends to what it has put
out and reads nothing of it. -/

namespace Sys2Proof.Machine

variable {s t : State}

/-- A step performs the head of the schedule (00_scope.md R18). -/
theorem step_cons {m : Move} {ms : List Move} (h : s.moves = m :: ms) : step s = runMove m { s with moves := ms } := by
  simp [step, h]

/-- Settles O37: with `OQ` empty or not, the step is DELIVER in the state whose schedule is one move shorter. -/
theorem deliverMovesTheHead : Obligations.DeliverMovesTheHead := by
  unfold Obligations.DeliverMovesTheHead
  intro s ms hm
  rw [step_cons hm, runMove]
  constructor
  · intro w rest hq
    rw [deliver_cons (s := { s with moves := ms }) hq]
  · intro hq
    rw [deliver_nil (s := { s with moves := ms }) hq]

/-- Port `out_valid` shows 1 exactly while a beat waits (20_memory.md R71). -/
theorem outValid_iff : s.outValid = true ↔ s.oq ≠ [] := by
  simp [State.outValid]

/-- A beat offered is the head of `OQ` (20_memory.md R71). -/
theorem outBeat_eq_some {w : OutBeat} : s.outBeat = some w ↔ ∃ rest, s.oq = w :: rest :=
  List.head?_eq_some_iff

/-- Settles O38: what is appended to a queue leaves its head where it is. -/
theorem offeredOutputIsStable : Obligations.OfferedOutputIsStable := by
  unfold Obligations.OfferedOutputIsStable
  refine ⟨fun s => outValid_iff, fun i s t w hw h => ?_⟩
  obtain ⟨rest, hs⟩ := outBeat_eq_some.mp hw
  rw [exec_eq_accept] at h
  obtain ⟨_, _, _, out, ht⟩ := accept_channels h
  rw [hs, List.cons_append] at ht
  exact ⟨outValid_iff.mpr (by simp [ht]), outBeat_eq_some.mpr ⟨_, ht⟩⟩

/-- The same state with earlier output before its own: `k` delivered and `q` still waiting. -/
def State.behind (q k : List OutBeat) (s : State) : State := { s with oq := q ++ s.oq, taken := k }

/-- The state a beat ends in, changed by `f`; a stop stays. -/
@[simp] def mapNext (f : State → State) : Host.Outcome State Fault Refusal → Host.Outcome State Fault Refusal
  | .next t => .next (f t)
  | .fault e => .fault e
  | .refused r => .refused r

/-- The state a symbol part ends in, changed by `f`; a fault and a stop stay. -/
@[simp] def SymbolResult.mapDone (f : State → State) : SymbolResult → SymbolResult
  | .done t => .done (f t)
  | .raised c => .raised c
  | .stopped e => .stopped e

variable (q k : List OutBeat)

@[simp] theorem State.behind_flt : (s.behind q k).flt = s.flt := rfl
@[simp] theorem State.behind_busy : (s.behind q k).busy = s.busy := rfl
@[simp] theorem State.behind_op : (s.behind q k).op = s.op := rfl
@[simp] theorem State.behind_gb0 : (s.behind q k).gb0 = s.gb0 := rfl
@[simp] theorem State.behind_gb1 : (s.behind q k).gb1 = s.gb1 := rfl
@[simp] theorem State.behind_gb2 : (s.behind q k).gb2 = s.gb2 := rfl
@[simp] theorem State.behind_gc : (s.behind q k).gc = s.gc := rfl
@[simp] theorem State.behind_pr : (s.behind q k).pr = s.pr := rfl
@[simp] theorem State.behind_cfg : (s.behind q k).cfg = s.cfg := rfl

@[simp] theorem State.setGc_behind (g : BitVec 2) : (s.behind q k).setGc g = (s.setGc g).behind q k := rfl
@[simp] theorem State.setPr_behind (n : Nat) : (s.behind q k).setPr n = (s.setPr n).behind q k := rfl
@[simp] theorem State.setCell_behind (j : BitVec 2) (d : Symbol) :
    (s.behind q k).setCell j d = (s.setCell j d).behind q k := rfl
@[simp] theorem State.closeMsg_behind : (s.behind q k).closeMsg = s.closeMsg.behind q k := rfl
@[simp] theorem State.raiseFault_behind (c : BitVec 2) : (s.behind q k).raiseFault c = (s.raiseFault c).behind q k := rfl

@[simp] theorem State.emitSyms_behind (ds : List Symbol) :
    (s.behind q k).emitSyms ds = (s.emitSyms ds).behind q k := by
  simp [State.behind, State.emitSyms]

@[simp] theorem State.emitEnd_behind : (s.behind q k).emitEnd = s.emitEnd.behind q k := by
  simp [State.behind, State.emitEnd]

/-- The opening part reads nothing of the output. -/
theorem opening_behind (code : BitVec 2) :
    opening code (s.behind q k) = (opening code s).map (State.behind q k) := by
  cases ho : opening code s with
  | none =>
    have hreserved := opening_eq_none.mp ho
    exact opening_eq_none.mpr hreserved
  | some s1 =>
    rcases opening_eq_some ho with ⟨hb, rfl⟩ | ⟨hb, o, rfl, rfl⟩
    · exact opening_busy hb
    · exact opening_idle o hb

/-- `ENC_S` reads nothing of the output. -/
theorem encTake_behind (d : Symbol) : encTake d (s.behind q k) = (encTake d s).mapDone (State.behind q k) := by
  rcases encTake_cases d s with ⟨h2, hs⟩ | ⟨h2, h3, hs⟩ | ⟨h3, hs⟩ <;> rw [hs]
  · simp [encTake_full (s := s.behind q k) d h2]
  · simp [encTake_partial (s := s.behind q k) d h2 h3]
  · simp [encTake, store, State.storeSymbol, h3]

/-- `DEC_S` reads nothing of the output. -/
theorem decTake_behind (c : Symbol) : decTake c (s.behind q k) = (decTake c s).mapDone (State.behind q k) := by
  rcases decTake_cases c s with ⟨h3, hs⟩ | ⟨h3, hs⟩ <;> rw [hs]
  · simp [decTake_full (s := s.behind q k) c h3]
  · simp [decTake_partial (s := s.behind q k) c h3]

/-- `TRIM_S` reads nothing of the output. -/
theorem trimTake_behind (c : Symbol) : trimTake c (s.behind q k) = (trimTake c s).mapDone (State.behind q k) := by
  rcases trimTake_cases c s with ⟨rfl, hp, hs⟩ | ⟨rfl, hp, hs⟩ | ⟨hc, hs⟩ <;> rw [hs]
  · exact trimTake_overflow (s := s.behind q k) hp
  · exact trimTake_pad (s := s.behind q k) hp
  · simp [trimTake_other (s := s.behind q k) hc]

/-- The symbol part reads nothing of the output. -/
theorem symbolPart_behind (keep : Bool) (d : Symbol) :
    symbolPart keep d (s.behind q k) = (symbolPart keep d s).mapDone (State.behind q k) := by
  cases keep with
  | false => rfl
  | true =>
    cases ho : s.op with
    | enc => rw [symbolPart_enc d ho, symbolPart_enc (s := s.behind q k) d ho, encTake_behind]
    | dec => rw [symbolPart_dec d ho, symbolPart_dec (s := s.behind q k) d ho, decTake_behind]
    | trim => rw [symbolPart_trim d ho, symbolPart_trim (s := s.behind q k) d ho, trimTake_behind]

/-- A closing rule reads nothing of the output. -/
theorem closeGroup_behind : closeGroup (s.behind q k) = (closeGroup s).behind q k := by
  simp only [closeGroup, State.behind_op]
  cases s.op with
  | enc => simp [encClose, apply_ite (State.behind q k)]
  | dec => simp [decClose, apply_ite (State.behind q k)]
  | trim => rfl

/-- The closing part reads nothing of the output. -/
theorem closingPart_behind (last : Bool) : closingPart last (s.behind q k) = (closingPart last s).behind q k := by
  cases last with
  | false => rfl
  | true => simp [closingPart, closeGroup_behind]

/-- ACCEPT reads nothing of the output: with earlier output put before, it does the same behind it. -/
theorem accept_behind (code : BitVec 2) (last keep : Bool) (d : Symbol) :
    accept code last keep d (s.behind q k) = mapNext (State.behind q k) (accept code last keep d s) := by
  unfold accept
  simp only [State.behind_flt, opening_behind]
  split
  · rfl
  · split
    · rfl
    · cases opening code s with
      | none => rfl
      | some s1 =>
        simp only [Option.map_some, symbolPart_behind]
        cases symbolPart keep d s1 with
        | done s2 => simp [closingPart_behind]
        | raised c => rfl
        | stopped e => rfl

/-- A form reads nothing of the output. -/
theorem exec_behind (i : Instr) : exec i (s.behind q k) = mapNext (State.behind q k) (exec i s) := by
  rw [exec_eq_accept, exec_eq_accept, accept_behind]

/-- Behind nothing of its own, a state's output is the output put before it. -/
theorem behind_of_empty : ({ s with oq := [], taken := [] } : State).behind q k = { s with oq := q, taken := k } := by
  simp [State.behind]

/-- Whatever a form emits it appends, and with any other output so far it has the same effect and emits the same beats:
both runs are the run from the empty output, behind what was there. -/
theorem exec_appends {i : Instr} (h : exec i s = .next t) :
    ∃ out, t.oq = s.oq ++ out ∧
      ∀ q k, exec i { s with oq := q, taken := k } = .next { t with oq := q ++ out, taken := k } := by
  have hbehind : ∀ q k, exec i { s with oq := q, taken := k } =
      mapNext (State.behind q k) (exec i { s with oq := [], taken := [] }) := by
    intro q k
    rw [← behind_of_empty, exec_behind]
  have hs := hbehind s.oq s.taken
  rw [show ({ s with oq := s.oq, taken := s.taken } : State) = s from rfl, h] at hs
  cases h0 : exec i { s with oq := [], taken := [] } with
  | next t0 =>
    rw [h0] at hs
    obtain rfl : t = t0.behind s.oq s.taken := Host.Outcome.next.inj hs
    exact ⟨t0.oq, rfl, fun q k => by rw [hbehind, h0]; rfl⟩
  | fault e => rw [h0] at hs; cases hs
  | refused r => rw [h0] at hs; cases hs

/-- Settles O41: a form runs from the empty output and stands behind any other. -/
theorem beatsOnlyAppendOutput : Obligations.BeatsOnlyAppendOutput := by
  unfold Obligations.BeatsOnlyAppendOutput
  exact fun i s t h => exec_appends h

end Sys2Proof.Machine
end

section
/-! Deliveries do not change what is put out (20_memory.md R72): every schedule without RESET does what its offers alone do. -/

namespace Sys2Proof.Machine

variable {s t : State}

/-- The same state with what was delivered put back in front of `OQ`: all the output, and no trace of who has taken it. -/
def State.undelivered (s : State) : State := { s with oq := s.taken ++ s.oq, taken := [] }

/-- A delivery moves a beat over and changes nothing of the whole output. -/
theorem undelivered_deliver (s : State) : s.deliver.undelivered = s.undelivered := by
  cases hq : s.oq with
  | nil => rw [deliver_nil hq]
  | cons w rest => simp [deliver_cons hq, State.undelivered, hq]

/-- A delivery does not look at the schedule. -/
theorem deliver_setMoves (s : State) (ms : List Move) :
    ({ s with moves := ms } : State).deliver = { s.deliver with moves := ms } := by
  cases hq : s.oq with
  | nil => simp [State.deliver, hq]
  | cons w rest => simp [State.deliver, hq]

/-- A form does to the whole output what it does to `OQ`, under any schedule. -/
theorem exec_undelivered {i : Instr} (h : exec i s = .next t) (ms : List Move) :
    exec i { s.undelivered with moves := ms } = .next { t.undelivered with moves := ms } := by
  obtain ⟨out, hoq, hexec⟩ := exec_appends h
  have htaken : t.taken = s.taken := by
    rw [exec_eq_accept] at h
    obtain ⟨_, htaken, _⟩ := accept_channels h
    exact htaken
  have hu : exec i s.undelivered = .next t.undelivered := by
    have ht : t.undelivered = { t with oq := s.taken ++ s.oq ++ out, taken := [] } := by
      rw [State.undelivered, htaken, hoq, List.append_assoc]
    exact ht ▸ hexec (s.taken ++ s.oq) []
  rw [exec_eq_accept] at hu ⊢
  rw [accept_setMoves, hu]

/-- In the unbounded model an offer does to the whole output what it does to `OQ`, under any schedule. -/
theorem offer_undelivered (hcfg : s.cfg.oqDepth = none) (h : offer s = .next t) (ms : List Move) :
    offer { s.undelivered with moves := ms } = .next { t.undelivered with moves := ms } := by
  have hready : s.inReady = !s.flt := inReady_unbounded hcfg
  have hready' : ({ s.undelivered with moves := ms } : State).inReady = !s.flt := inReady_unbounded hcfg
  cases hf : s.flt with
  | true =>
    rw [offer_waits (by simp [hready, hf])] at h
    obtain rfl : s = t := Host.Outcome.next.inj h
    exact offer_waits (by simp [hready', hf])
  | false =>
    cases hq : s.inq with
    | nil =>
      obtain rfl : s = t := by simpa [offer, State.fetch, hq] using h
      simp [offer, State.fetch, State.undelivered, hq]
    | cons w rest =>
      rw [offer_cons hq, if_pos (by simp [hready, hf])] at h
      rw [offer_cons (s := { s.undelivered with moves := ms }) hq, if_pos (by simp [hready', hf])]
      exact exec_undelivered h ms

/-- An offer leaves the parameters and the schedule alone. -/
theorem offer_cfg_moves (h : offer s = .next t) : t.cfg = s.cfg ∧ t.moves = s.moves := by
  cases he : s.acceptEnabled with
  | false => rw [offer_disabled he h]; exact ⟨rfl, rfl⟩
  | true =>
    obtain ⟨w, rest, _, hx⟩ := offer_enabled he h
    obtain ⟨_, hmoves, _, hcfg⟩ := formsLeaveHostSideAlone _ _ _ hx
    exact ⟨hcfg, hmoves⟩

/-- A run goes on from the state its first step ends in. -/
theorem run_succ_of_step {n : Nat} (h : step s = .next t) : Sys2Proof.core.run (n + 1) s = Sys2Proof.core.run n t := by
  have hcore : Sys2Proof.core.step s = .next t := h
  simp only [Host.Core.run, hcore]

/-- A run that ends in a state took a first step and went on from there. -/
theorem step_of_run_succ {n : Nat} (h : Sys2Proof.core.run (n + 1) s = .next t) :
    ∃ u, step s = .next u ∧ Sys2Proof.core.run n u = .next t := by
  simp only [Host.Core.run] at h
  split at h
  · exact ⟨_, ‹_›, h⟩
  · cases h
  · cases h

/-- In the unbounded model a run without RESET does to the whole output what its offers alone do. -/
theorem run_undelivered {ms : List Move} (hcfg : s.cfg.oqDepth = none) (hreset : .reset ∉ ms)
    (h : Sys2Proof.core.run ms.length { s with moves := ms } = .next t) :
    Sys2Proof.core.run (ms.count .accept) { s.undelivered with moves := List.replicate (ms.count .accept) .accept } =
      .next t.undelivered := by
  induction ms generalizing s with
  | nil =>
    obtain rfl : { s with moves := [] } = t := Host.Outcome.next.inj h
    rfl
  | cons m ms ih =>
    have hreset' : .reset ∉ ms := fun hm => hreset (List.mem_cons_of_mem m hm)
    obtain ⟨u, hstep, hrun⟩ := step_of_run_succ h
    rw [step_cons rfl] at hstep
    cases m with
    | reset => exact absurd List.mem_cons_self hreset
    | deliver =>
      obtain rfl : { s.deliver with moves := ms } = u := by
        rw [← deliver_setMoves]
        exact Host.Outcome.next.inj hstep
      obtain ⟨_, _, _, hdcfg⟩ := deliver_channels s
      have hoffers := ih (hdcfg ▸ hcfg) hreset' hrun
      rw [undelivered_deliver] at hoffers
      rwa [List.count_cons_of_ne (by decide)]
    | accept =>
      have hoffer : offer { s with moves := ms } = .next u := hstep
      obtain ⟨hucfg, humoves⟩ := offer_cfg_moves hoffer
      have hu : ({ u with moves := ms } : State) = u := by cases u; cases humoves; rfl
      have hoffers := ih (hucfg ▸ hcfg) hreset' (hu.symm ▸ hrun)
      have hfirst : step { s.undelivered with moves := .accept :: List.replicate (ms.count .accept) .accept } =
          .next { u.undelivered with moves := List.replicate (ms.count .accept) .accept } :=
        offer_undelivered (s := { s with moves := ms }) hcfg hoffer _
      rw [List.count_cons_self, ← hoffers]
      exact run_succ_of_step hfirst

/-- Settles O42: both runs are the run of their offers alone, but for what of the output has been taken. -/
theorem interleavingDoesNotMatter : Obligations.InterleavingDoesNotMatter := by
  unfold Obligations.InterleavingDoesNotMatter
  intro ms ms' s t t' hcfg hr hr' hcount h h'
  have ht := run_undelivered hcfg hr h
  have ht' := run_undelivered hcfg hr' h'
  rw [← hcount] at ht'
  have hout : t.undelivered = t'.undelivered := Host.Outcome.next.inj (ht.symm.trans ht')
  exact ⟨congrArg State.oq hout, congrArg (fun u : State => { u with taken := [], oq := [] }) hout⟩

end Sys2Proof.Machine
end

section
/-! The input beats (30_encoding.md R82, R91): a form and its beat are the same four fields, so each gives the other back,
and the rows of the opcode map share no beat. -/

namespace Sys2Proof.Machine

/-- A beat that carries the fields of a form decodes to that form (R91). -/
theorem decode_eq_of_fields {w : Beat} {i : Instr} (hop : beatOp w = i.opBits) (hlast : beatLast w = i.lastBit)
    (hkeep : beatKeep w = i.keepBit) (hdata : beatData w = i.dataBits) : decode w = i := by
  unfold decode
  rw [hop, hlast, hkeep, hdata]
  cases i <;> rfl

/-- Decoding undoes encoding. -/
theorem decode_encode (i : Instr) : decode (encode i) = i := by
  obtain ⟨hop, hlast, hkeep, hdata⟩ := packBeat_fields i.opBits i.lastBit i.keepBit i.dataBits
  exact decode_eq_of_fields hop hlast hkeep hdata

/-- Encoding undoes decoding: the form keeps every field of the beat. -/
theorem encode_decode (w : Beat) : encode (decode w) = w := by
  obtain ⟨hop, hlast, hkeep, hdata⟩ := decode_fields w
  rw [encode, hop, hlast, hkeep, hdata, packBeat_of_fields]

/-- Settles O2: a form and its beat hold the same four fields. -/
theorem decodeEncodeRoundTrip : Obligations.DecodeEncodeRoundTrip := by
  unfold Obligations.DecodeEncodeRoundTrip
  exact ⟨fun i _ => decode_encode i, encode_decode⟩

/-- The row that bears a decoded form's name covers the beat. -/
theorem rowMatch (i : Instr) : Laws.RowMatch.Statement i := by
  cases i with
  | bubble op u => exact Laws.RowMatch.bubble op u
  | encS d => exact Laws.RowMatch.encS d
  | encE u => exact Laws.RowMatch.encE u
  | encSE d => exact Laws.RowMatch.encSE d
  | decS c => exact Laws.RowMatch.decS c
  | decE u => exact Laws.RowMatch.decE u
  | decSE c => exact Laws.RowMatch.decSE c
  | trimS c => exact Laws.RowMatch.trimS c
  | trimE u => exact Laws.RowMatch.trimE u
  | trimSE c => exact Laws.RowMatch.trimSE c
  | rsvS d => exact Laws.RowMatch.rsvS d
  | rsvE u => exact Laws.RowMatch.rsvE u
  | rsvSE d => exact Laws.RowMatch.rsvSE d

/-- Rows that share a beat have patterns that agree where both masks look. -/
theorem patterns_agree_of_covers {r r' : OpcodeRow} {w : Beat} (h : r.covers w = true) (h' : r'.covers w = true) :
    r.pattern &&& r'.mask = r'.pattern &&& r.mask := by
  have hr : w &&& r.mask = r.pattern := beq_iff_eq.mp h
  have hr' : w &&& r'.mask = r'.pattern := beq_iff_eq.mp h'
  rw [← hr, ← hr', BitVec.and_assoc, BitVec.and_assoc, BitVec.and_comm r.mask]

/-- No two rows of the opcode map have patterns that agree so. -/
theorem rows_disjoint : ∀ r ∈ opcodeRows, ∀ r' ∈ opcodeRows,
    r.pattern &&& r'.mask = r'.pattern &&& r.mask → r' = r := by decide

/-- Settles O3: the row of the decoded form covers the beat, and a second row would agree with its pattern. -/
theorem rowsPartitionBeats : Obligations.RowsPartitionBeats := by
  unfold Obligations.RowsPartitionBeats
  intro w
  obtain ⟨r, hr, hname, hcovers⟩ := rowMatch (decode w)
  rw [encode_decode] at hcovers
  exact ⟨r, hr, hcovers, hname, fun r' hr' h' => rows_disjoint r hr r' hr' (patterns_agree_of_covers hcovers h')⟩

/-- A field shifted to its place loses no bit where the place lies in the 12 bits of a beat. -/
theorem toNat_setWidth_shiftLeft {v n : Nat} (x : BitVec v) (h : v + n ≤ 12) :
    (x.setWidth 12 <<< n).toNat = x.toNat <<< n := by
  have hlt : x.toNat <<< n < 2 ^ 12 :=
    (Nat.shiftLeft_lt x.isLt).trans_le (Nat.pow_le_pow_right Nat.zero_lt_two h)
  rw [BitVec.toNat_shiftLeft, BitVec.toNat_setWidth_of_le (by omega), Nat.mod_eq_of_lt hlt]

/-- The layout of the fields in numbers (R82). -/
theorem packBeat_toNat (op : BitVec 2) (l k : Bool) (d : Symbol) :
    (packBeat op l k d).toNat = (op.toNat <<< 10) ||| (l.toNat <<< 9) ||| (k.toNat <<< 8) ||| d.toNat := by
  simp (disch := decide) only [packBeat, BitVec.toNat_or, toNat_setWidth_shiftLeft, BitVec.toNat_ofBool,
    BitVec.toNat_setWidth_of_le]

/-- Settles O4: a beat is the layout of its fields, and a form is encoded by laying out its own. -/
theorem beatIsSumOfFields : Obligations.BeatIsSumOfFields := by
  unfold Obligations.BeatIsSumOfFields
  constructor
  · intro w
    rw [← packBeat_toNat, packBeat_of_fields]
  · intro i
    exact packBeat_fields i.opBits i.lastBit i.keepBit i.dataBits

/-- Settles O1: each word is evaluated. -/
theorem specWordsDecode : Obligations.SpecWordsDecode := by
  unfold Obligations.SpecWordsDecode
  decide

end Sys2Proof.Machine
end

section
/-! Which fields of a beat count (30_encoding.md R89, R90), and the order of two transfers at one edge (R81). -/

namespace Sys2Proof.Machine

variable {s t : State}

/-- Under an open message the `op` field is not read (R90). -/
theorem accept_code_of_busy (hb : s.busy = true) (code code' : BitVec 2) (last keep : Bool) (d : Symbol) :
    accept code last keep d s = accept code' last keep d s := by
  simp only [accept, opening_busy hb]

/-- A beat that opens a message and is processed leaves its own operation in `OP`, and the message open unless it
closes (R90, 40_framing.md R112, R116). -/
theorem accept_latches {code : BitVec 2} {last keep : Bool} {d : Symbol} (hf : s.flt = false) (hb : s.busy = false)
    (hlk : last = true ∨ keep = true) (h : accept code last keep d s = .next t) (ht : t.flt = false) :
    t.op.code = code ∧ t.busy = !last := by
  rcases accept_cases h with ⟨hfault, _⟩ | ⟨_, rfl, rfl, _⟩ | ⟨_, _, _, _, rfl⟩ | ⟨_, _, s1, ho, hpart⟩
  · simp [hf] at hfault
  · simp at hlk
  · simp at ht
  · rcases hpart with ⟨c, _, rfl⟩ | ⟨s2, hs, rfl⟩
    · simp at ht
    · obtain ⟨_, _, hclose, _, _, _, _, _, _, _, hcloseBusy⟩ := closingPart_fields last s2
      obtain ⟨_, _, hbusy, hop, _⟩ := symbolPart_done hs
      rcases opening_eq_some ho with ⟨hb', _⟩ | ⟨_, o, rfl, rfl⟩
      · simp [hb] at hb'
      · simp [hclose, hop, hcloseBusy, hbusy]

/-- Settles O21: a beat is ACCEPT of its fields, whose opening part reads `op` only with `BUSY` = 0. -/
theorem opReadOnlyWhenOpening : Obligations.OpReadOnlyWhenOpening := by
  unfold Obligations.OpReadOnlyWhenOpening
  constructor
  · intro s v w hb hlast hkeep hdata
    rw [exec_decode, exec_decode, hlast, hkeep, hdata]
    exact accept_code_of_busy hb ..
  · intro s t w hf hb hbubble _ h ht
    have hlk : beatLast w = true ∨ beatKeep w = true := by
      cases hl : beatLast w <;> cases hk : beatKeep w <;> simp [beatBubble, hl, hk] at hbubble ⊢
    rw [exec_decode] at h
    exact accept_latches hf hb hlk h ht

/-- A beat without a symbol does not read its `data` (R89). -/
theorem accept_data_ignored (code : BitVec 2) (last : Bool) (u v : Symbol) (s : State) :
    accept code last false u s = accept code last false v s := by
  simp only [accept, symbolPart_none]

/-- Settles O22: a bubble changes nothing, and an E beat has no symbol part. -/
theorem ignoredFieldsHaveNoEffect : Obligations.IgnoredFieldsHaveNoEffect := by
  unfold Obligations.IgnoredFieldsHaveNoEffect
  intro s u v o o'
  have hclose : ∀ code, accept code true false u s = accept code true false v s :=
    fun code => accept_data_ignored code true u v s
  have hbubble : exec (.bubble o u) s = exec (.bubble o' v) s := by
    rw [exec_eq_accept, exec_eq_accept]
    exact accept_bubble.trans accept_bubble.symm
  exact ⟨hbubble, hclose 0#2, hclose 1#2, hclose 2#2, hclose 3#2⟩

/-- Settles O40: the beat appends behind the head that is delivered, and does not look at what was delivered. -/
theorem acceptAndDeliverCommute : Obligations.AcceptAndDeliverCommute := by
  unfold Obligations.AcceptAndDeliverCommute
  intro i s t hne h
  obtain ⟨w, rest, hq⟩ := List.exists_cons_of_ne_nil hne
  obtain ⟨out, hout, hbehind⟩ := exec_appends h
  obtain ⟨_, _, htaken, _⟩ := formsLeaveHostSideAlone i s t h
  have hqt : t.oq = w :: (rest ++ out) := by rw [hout, hq, List.cons_append]
  rw [deliver_cons hq, deliver_cons hqt, htaken]
  exact hbehind rest (s.taken ++ [w])

end Sys2Proof.Machine
end

section
/-! Reading back the two expansions of a message (30_encoding.md R87, R92). -/

namespace Sys2Proof.Machine

variable {op : BitVec 2} {d : Symbol}

/-- An S beat puts its symbol before those of the beats behind it. -/
theorem messageSymbols_symbol {ws : List Beat} {m : List Symbol} (h : messageSymbols ws = some m) :
    messageSymbols (packBeat op false true d :: ws) = some (d :: m) := by
  simp [messageSymbols, beatBubble, beatSymbols, packBeat_fields, h]

/-- A closing beat ends the message, with its symbol if it carries one. -/
theorem messageSymbols_closing (keep : Bool) :
    messageSymbols [packBeat op true keep d] = some (if keep then [d] else []) := by
  simp [messageSymbols, beatBubble, beatSymbols, packBeat_fields]

/-- A whole message whose first beat is no bubble is one of that beat's operation. -/
theorem readMessage_of_opening {last keep : Bool} {ws : List Beat} {m : List Symbol} (hop : op ≠ 3#2)
    (hlk : (!last && !keep) = false) (h : messageSymbols (packBeat op last keep d :: ws) = some m) :
    readMessage (packBeat op last keep d :: ws) = some (op, m) := by
  simp [readMessage, beatBubble, packBeat_fields, hlk, hop, h]

/-- The canonical expansion carries its symbols. -/
theorem messageSymbols_canonicalBeats (op : BitVec 2) : ∀ m, messageSymbols (canonicalBeats op m) = some m
  | [] => messageSymbols_closing false
  | [_] => messageSymbols_closing true
  | _ :: d :: m => messageSymbols_symbol (messageSymbols_canonicalBeats op (d :: m))

/-- The split expansion carries its symbols. -/
theorem messageSymbols_splitBeats (op : BitVec 2) (m : List Symbol) : messageSymbols (splitBeats op m) = some m := by
  induction m with
  | nil => exact messageSymbols_closing false
  | cons d m ih => exact messageSymbols_symbol ih

/-- The canonical expansion reads back. -/
theorem readMessage_canonicalBeats (hop : op ≠ 3#2) (m : List Symbol) :
    readMessage (canonicalBeats op m) = some (op, m) := by
  have h := messageSymbols_canonicalBeats op m
  match m with
  | [] => exact readMessage_of_opening hop rfl h
  | [_] => exact readMessage_of_opening hop rfl h
  | _ :: _ :: _ => exact readMessage_of_opening hop rfl h

/-- The split expansion reads back. -/
theorem readMessage_splitBeats (hop : op ≠ 3#2) (m : List Symbol) : readMessage (splitBeats op m) = some (op, m) := by
  have h := messageSymbols_splitBeats op m
  cases m with
  | nil => exact readMessage_of_opening hop rfl h
  | cons d m => exact readMessage_of_opening hop rfl h

/-- Settles O51: both expansions carry the symbols in order and open with a beat of the operation. -/
theorem spellingsReadBack : Obligations.SpellingsReadBack := by
  unfold Obligations.SpellingsReadBack
  exact fun _ m hop => ⟨readMessage_canonicalBeats hop m, readMessage_splitBeats hop m⟩

end Sys2Proof.Machine
end

section
/-! Beats under an open message and beats of no operation (40_framing.md R111, R113, R117): what keeps a message open, and
what ends it. -/

namespace Sys2Proof.Machine

variable {s t : State} {code : BitVec 2} {last keep : Bool} {d : Symbol}

/-- The symbol part takes any symbol that finds a cell and is no `=` of a TRIM message. -/
theorem symbolPart_takes (keep : Bool) (hcell : s.op = .enc → s.gc ≠ 3#2) (hpad : s.op = .trim → d ≠ padChar) :
    ∃ t, symbolPart keep d s = .done t := by
  cases h : symbolPart keep d s with
  | done t => exact ⟨t, rfl⟩
  | raised c =>
    obtain ⟨_, hop, hd, _⟩ := symbolPart_raised h
    exact absurd hd (hpad hop)
  | stopped f =>
    obtain ⟨_, hop, hg⟩ := symbolPart_stopped h
    exact absurd hg (hcell hop)

/-- The reserved code faults on every opening beat that is no bubble (R113). -/
theorem accept_reserved_opening (hf : s.flt = false) (hb : s.busy = false) (hlk : last = true ∨ keep = true) :
    accept 3#2 last keep d s = .next (s.raiseFault rsvopCode) :=
  accept_reserved hf hlk (opening_eq_none.mpr ⟨hb, rfl⟩)

/-- A beat under an open message, whatever its code, completes when the symbol part takes any symbol it has: the message
keeps its operation, and ends exactly if the beat closes (R116, R117). -/
theorem accept_continues (code : BitVec 2) (hf : s.flt = false) (hb : s.busy = true) (hlk : last = true ∨ keep = true)
    (hcell : s.op = .enc → s.gc ≠ 3#2) (hpad : s.op = .trim → d ≠ padChar) :
    ∃ t, accept code last keep d s = .next t ∧ t.flt = false ∧ t.busy = !last ∧ t.op = s.op := by
  obtain ⟨t, hs⟩ := symbolPart_takes keep hcell hpad
  obtain ⟨hflt, _, hbusy, hop, _⟩ := symbolPart_done hs
  obtain ⟨hcflt, _, hcop, _, _, _, _, _, _, _, hcbusy⟩ := closingPart_fields last t
  exact ⟨_, accept_done hf hlk (opening_busy hb) hs, by rw [hcflt, hflt, hf], by simp [hcbusy, hbusy, hb],
    by rw [hcop, hop]⟩

/-- Settles O20: the reserved code matters only to the opening part, and under an open message that is not read. -/
theorem reservedOperation : Obligations.ReservedOperation := by
  unfold Obligations.ReservedOperation
  refine ⟨fun s d hf hb => ?_, fun s d hb => ?_, fun s d hf hb hcell hpad => ?_⟩
  · exact ⟨accept_reserved_opening hf hb (.inr rfl), accept_reserved_opening (d := d) hf hb (.inl rfl),
      accept_reserved_opening hf hb (.inl rfl)⟩
  · have hcode : ∀ last keep, accept 3#2 last keep d s = accept 0#2 last keep d s :=
      fun last keep => accept_code_of_busy hb 3#2 0#2 last keep d
    exact ⟨hcode false true, hcode true false, hcode true true⟩
  · exact ⟨accept_continues 3#2 hf hb (.inr rfl) hcell hpad, accept_continues 3#2 hf hb (.inl rfl) hcell hpad,
      accept_continues 3#2 hf hb (.inl rfl) hcell hpad⟩

/-- Under an open message ACCEPT keeps `OP`, and clears `BUSY` only by a closing beat (R117). -/
theorem accept_ends_only_by_last (hb : s.busy = true) (h : accept code last keep d s = .next t) :
    t.op = s.op ∧ (t.busy = false → last = true) := by
  rcases accept_cases h with ⟨_, rfl⟩ | ⟨_, _, _, rfl⟩ | ⟨_, _, hidle, _⟩ | ⟨_, _, s1, ho, hpart⟩
  · simp [hb]
  · simp [hb]
  · simp [hb] at hidle
  · obtain rfl : s = s1 := Option.some.inj ((opening_busy hb).symm.trans ho)
    rcases hpart with ⟨c, _, rfl⟩ | ⟨s2, hs, rfl⟩
    · simp [hb]
    · obtain ⟨_, _, hbusy, hop, _⟩ := symbolPart_done hs
      obtain ⟨_, _, hcop, _, _, _, _, _, _, _, hcbusy⟩ := closingPart_fields last s2
      exact ⟨hcop.trans hop, by simp [hcbusy, hbusy, hb]⟩

/-- DELIVER leaves the message open. -/
@[simp] theorem State.deliver_busy (s : State) : s.deliver.busy = s.busy := by
  cases h : s.oq <;> simp [State.deliver, h]

/-- DELIVER leaves the operation of the message. -/
@[simp] theorem State.deliver_op (s : State) : s.deliver.op = s.op := by
  cases h : s.oq <;> simp [State.deliver, h]

/-- Settles O49: of the moves `step_cases` allows, only RESET and an accepted beat touch the message. -/
theorem openMessageEndsOnlyByClosing : Obligations.OpenMessageEndsOnlyByClosing := by
  unfold Obligations.OpenMessageEndsOnlyByClosing
  intro s t hb h hreset
  rcases step_cases h with ⟨_, rfl⟩ | ⟨ms, hm, _⟩ | ⟨ms, _, rfl⟩ | ⟨ms, _, rfl⟩ | ⟨ms, w, rest, hm, hq, _, hx, _⟩
  · simp [hb]
  · simp [hm] at hreset
  · simp [hb]
  · simp [hb]
  · rw [exec_decode] at hx
    obtain ⟨hop, hlast⟩ := accept_ends_only_by_last (s := { s with moves := ms, inq := rest }) hb hx
    exact ⟨hop, fun ht => ⟨by simp [hm], w, rest, hq, hlast ht⟩⟩

/-- Settles O19: a bubble is ACCEPT with neither a symbol nor a close. -/
theorem bubbleHasNoEffect : Obligations.BubbleHasNoEffect := by
  unfold Obligations.BubbleHasNoEffect
  exact fun op u s => (exec_eq_accept (.bubble op u) s).trans accept_bubble

end Sys2Proof.Machine
end

section
/-! One step that offers a beat (40_framing.md R110, 30_encoding.md R81, 70_reset_and_hazards.md R244). -/

namespace Sys2Proof.Machine

variable {s t : State} {w : Beat} {rest : List Beat} {ms : List Move} {n : Nat}

/-- An offering step runs the offered beat exactly if `in_ready` shows 1, and otherwise loses only its move (R81). -/
theorem step_offer (hm : s.moves = .accept :: ms) (hq : s.inq = w :: rest) :
    step s = if s.inReady then exec (decode w) { s with moves := ms, inq := rest } else .next { s with moves := ms } := by
  rw [step_cons hm, runMove, offer_cons (s := { s with moves := ms }) hq, State.inReady_setMoves]

/-- In the guarded model a queue has room up to its depth (R244). -/
theorem hasRoom_guarded (h : s.cfg.oqDepth = some n) : s.hasRoom = decide (s.oq.length ≤ n) := by
  simp [State.hasRoom, h]

/-- In the guarded model `in_ready` shows an unfaulted block's producer whether the offered beat's output fits (R244). -/
theorem inReady_guarded (hq : s.inq = w :: rest) (hf : s.flt = false) (hcfg : s.cfg.oqDepth = some n)
    (hx : exec (decode w) { s with moves := ms, inq := rest } = .next t) : s.inReady = decide (t.oq.length ≤ n) := by
  obtain ⟨_, _, _, htcfg⟩ := formsLeaveHostSideAlone _ _ _ hx
  have hroom : t.hasRoom = decide (t.oq.length ≤ n) := hasRoom_guarded (by rw [htcfg]; exact hcfg)
  rw [← State.inReady_setMoves s ms, inReady_offered (s := { s with moves := ms }) hq hx, hroom, hf]
  rfl

/-- Every beat can be placed: it goes to the head of the producer's list, and its offer to the head of the schedule. -/
theorem withFetchWord_beat (s : State) (w : Beat) :
    s.withFetchWord 12 w.toNat = { s with inq := w :: s.inq, moves := .accept :: s.moves } := by
  have hword : w.toNat % 2 ^ 12 = w.toNat := Nat.mod_eq_of_lt w.isLt
  rw [State.withFetchWord, hword, if_pos w.isLt, BitVec.ofNat_toNat, BitVec.setWidth_eq]

/-- Settles O39: an offering step follows `in_ready`, and that is `FLT` alone, or whether the beat's output fits. -/
theorem stepRunsDecodedBeat : Obligations.StepRunsDecodedBeat := by
  unfold Obligations.StepRunsDecodedBeat
  refine ⟨fun s w rest ms hm hq hf => ⟨fun hcfg => ?_, fun n t hcfg hx => ⟨fun hfits => ?_, fun hover => ?_⟩⟩,
    fun s w hf hcfg => ?_⟩
  · have hready : s.inReady = true := by rw [inReady_unbounded hcfg, hf]; rfl
    exact ⟨hready, by rw [step_offer hm hq, if_pos hready]⟩
  · have hready : s.inReady = true := by rw [inReady_guarded hq hf hcfg hx, decide_eq_true hfits]
    exact ⟨hready, by rw [step_offer hm hq, if_pos hready, hx]⟩
  · have hready : s.inReady = false := by rw [inReady_guarded hq hf hcfg hx, decide_eq_false (by omega)]
    exact ⟨hready, by rw [step_offer hm hq, hready, if_neg Bool.false_ne_true]⟩
  · rw [withFetchWord_beat, step_offer rfl rfl, inReady_unbounded (by exact hcfg), if_pos (by simp [hf])]

end Sys2Proof.Machine
end

section
/-! The slicer and the joiner in numbers (41_encode.md R131, 42_decode.md R154), and that they undo each other (R135, R155). -/

namespace Sys2Proof.Machine

/-- Two fields side by side are a sum: the lower has `k` bits. -/
theorem shiftLeft_or_eq_add (hi k : Nat) {lo : Nat} (h : lo < 2 ^ k) : hi <<< k ||| lo = hi * 2 ^ k + lo := by
  rw [← Nat.shiftLeft_add_eq_or_of_lt h, Nat.shiftLeft_eq]

/-- Taking the bits of a byte from position `k` up needs no mask above them. -/
theorem mask_shiftRight {x mask k n : Nat} (hmask : mask >>> k = 2 ^ n - 1) (hx : x < 2 ^ (n + k)) :
    (x &&& mask) >>> k = x / 2 ^ k := by
  rw [Nat.shiftRight_and_distrib, hmask, Nat.and_two_pow_sub_one_eq_mod, Nat.shiftRight_eq_div_pow]
  exact Nat.mod_eq_of_lt (Nat.div_lt_of_lt_mul (by rwa [← pow_add, Nat.add_comm]))

/-- The low two bits of a byte above the high four of the next (41_encode.md R131, `s1`). -/
theorem slice_formula_s1 (x : Nat) {y : Nat} (hy : y < 256) :
    ((x &&& 0x03) <<< 4) ||| ((y &&& 0xF0) >>> 4) = (x % 4) * 16 + y / 16 := by
  have hlow : x &&& 0x03 = x % 4 := Nat.and_two_pow_sub_one_eq_mod x 2
  rw [mask_shiftRight (n := 4) rfl hy, hlow]
  exact shiftLeft_or_eq_add _ 4 (by omega)

/-- The low four bits of a byte above the high two of the next (41_encode.md R131, `s2`). -/
theorem slice_formula_s2 (x : Nat) {y : Nat} (hy : y < 256) :
    ((x &&& 0x0F) <<< 2) ||| ((y &&& 0xC0) >>> 6) = (x % 16) * 4 + y / 64 := by
  have hlow : x &&& 0x0F = x % 16 := Nat.and_two_pow_sub_one_eq_mod x 4
  rw [mask_shiftRight (n := 2) rfl hy, hlow]
  exact shiftLeft_or_eq_add _ 2 (by omega)

/-- `s3` keeps the low six bits of the last byte (41_encode.md R131). -/
theorem slice_formula_s3 (x : Nat) : x &&& 0x3F = x % 64 := Nat.and_two_pow_sub_one_eq_mod x 6

variable (b0 b1 b2 : Symbol)

/-- Sextet 0 is the high six bits of byte 0. -/
theorem slice_s0_toNat : (slice b0 b1 b2).s0.toNat = b0.toNat / 4 := by
  simp only [slice, BitVec.toNat_setWidth, BitVec.toNat_ushiftRight, Nat.shiftRight_eq_div_pow]
  omega

/-- Sextet 1 is the low two bits of byte 0 and the high four of byte 1. -/
theorem slice_s1_toNat : (slice b0 b1 b2).s1.toNat = (b0.toNat % 4) * 16 + b1.toNat / 16 := by
  have hformula := slice_formula_s1 b0.toNat b1.isLt
  have hhigh : (b0.toNat &&& 0x03) <<< 4 % 256 = (b0.toNat &&& 0x03) <<< 4 :=
    Nat.mod_eq_of_lt (Nat.shiftLeft_lt (Nat.and_lt_two_pow b0.toNat (show 0x03 < 2 ^ 4 by decide)))
  simp only [slice, BitVec.toNat_setWidth, BitVec.toNat_or, BitVec.toNat_shiftLeft, BitVec.toNat_ushiftRight,
    BitVec.toNat_and, BitVec.toNat_ofNat, Nat.reduceMod, Nat.reducePow, hhigh, hformula]
  omega

/-- Sextet 2 is the low four bits of byte 1 and the high two of byte 2. -/
theorem slice_s2_toNat : (slice b0 b1 b2).s2.toNat = (b1.toNat % 16) * 4 + b2.toNat / 64 := by
  have hformula := slice_formula_s2 b1.toNat b2.isLt
  have hhigh : (b1.toNat &&& 0x0F) <<< 2 % 256 = (b1.toNat &&& 0x0F) <<< 2 :=
    Nat.mod_eq_of_lt (Nat.shiftLeft_lt (Nat.and_lt_two_pow b1.toNat (show 0x0F < 2 ^ 6 by decide)))
  simp only [slice, BitVec.toNat_setWidth, BitVec.toNat_or, BitVec.toNat_shiftLeft, BitVec.toNat_ushiftRight,
    BitVec.toNat_and, BitVec.toNat_ofNat, Nat.reduceMod, Nat.reducePow, hhigh, hformula]
  omega

/-- Sextet 3 is the low six bits of byte 2. -/
theorem slice_s3_toNat : (slice b0 b1 b2).s3.toNat = b2.toNat % 64 := by
  have hformula := slice_formula_s3 b2.toNat
  simp only [slice, BitVec.toNat_setWidth, BitVec.toNat_and, BitVec.toNat_ofNat, Nat.reduceMod, Nat.reducePow]
  omega

/-- Settles O8: the slicer in quotients and remainders, and R131's formulas as the same numbers. -/
theorem slicerCutsTheWord : Obligations.SlicerCutsTheWord := by
  unfold Obligations.SlicerCutsTheWord
  intro b0 b1 b2
  have hshift0 : b0.toNat >>> 2 = b0.toNat / 4 := Nat.shiftRight_eq_div_pow _ 2
  rw [slice_s0_toNat, slice_s1_toNat, slice_s2_toNat, slice_s3_toNat, slice_formula_s1 _ b1.isLt,
    slice_formula_s2 _ b2.isLt, slice_formula_s3, hshift0]
  refine ⟨rfl, rfl, rfl, rfl, rfl, rfl, rfl, rfl, ?_⟩
  omega

/-- A byte shifted within 16 bits loses nothing (42_decode.md R154). -/
theorem toNat_setWidth16_shiftLeft (v : Symbol) {k : Nat} (hk : k ≤ 8) :
    (v.setWidth 16 <<< k).toNat = v.toNat <<< k := by
  have hlt : v.toNat <<< k < 2 ^ 16 :=
    (Nat.shiftLeft_lt v.isLt).trans_le (Nat.pow_le_pow_right Nat.zero_lt_two (by omega))
  rw [BitVec.toNat_shiftLeft, BitVec.toNat_setWidth_of_le (by decide), Nat.mod_eq_of_lt hlt]

/-- `trunc_8` is the remainder by 256 (00_scope.md R8). -/
theorem trunc8_toNat (x : BitVec 16) : (trunc8 x).toNat = x.toNat % 256 := BitVec.toNat_setWidth 8 x

/-- The joiner's formulas on numbers (42_decode.md R154). -/
theorem join_toNat (v0 v1 v2 v3 : Symbol) :
    (join v0 v1 v2 v3).b0.toNat = ((v0.toNat <<< 2) ||| (v1.toNat >>> 4)) % 256 ∧
    (join v0 v1 v2 v3).b1.toNat = ((v1.toNat <<< 4) ||| (v2.toNat >>> 2)) % 256 ∧
    (join v0 v1 v2 v3).b2.toNat = ((v2.toNat <<< 6) ||| v3.toNat) % 256 := by
  have hwiden : ∀ v : Symbol, (v.setWidth 16).toNat = v.toNat := fun v => BitVec.toNat_setWidth_of_le (by decide)
  simp (disch := decide) only [join, trunc8_toNat, BitVec.toNat_or, toNat_setWidth16_shiftLeft,
    BitVec.toNat_ushiftRight, hwiden, and_self]

/-- Four joined sextets, as quotients and remainders (42_decode.md R155, 20_memory.md R60). -/
theorem join_sextets_toNat {b : Bytes3} (s0 s1 s2 s3 : Sextet)
    (h : b = join (s0.setWidth 8) (s1.setWidth 8) (s2.setWidth 8) (s3.setWidth 8)) :
    b.b0.toNat = s0.toNat * 4 + s1.toNat / 16 ∧ b.b1.toNat = s1.toNat % 16 * 16 + s2.toNat / 4 ∧
      b.b2.toNat = s2.toNat % 4 * 64 + s3.toNat := by
  obtain ⟨h0, h1, h2⟩ := join_toNat (s0.setWidth 8) (s1.setWidth 8) (s2.setWidth 8) (s3.setWidth 8)
  have hwiden : ∀ v : Sextet, (v.setWidth 8).toNat = v.toNat := fun v => BitVec.toNat_setWidth_of_le (by decide)
  have hor0 := shiftLeft_or_eq_add s0.toNat 2 (lo := s1.toNat / 16) (by omega)
  have hor1 := shiftLeft_or_eq_add s1.toNat 4 (lo := s2.toNat / 4) (by omega)
  have hor2 := shiftLeft_or_eq_add s2.toNat 6 s3.isLt
  simp only [← h, hwiden, Nat.shiftRight_eq_div_pow, Nat.reducePow, hor0, hor1, hor2] at h0 h1 h2
  omega

/-- Three bytes are the same if their numbers are. -/
theorem Bytes3.eq_of_toNat {x y : Bytes3} (h0 : x.b0.toNat = y.b0.toNat) (h1 : x.b1.toNat = y.b1.toNat)
    (h2 : x.b2.toNat = y.b2.toNat) : x = y := by
  cases x; cases y
  simp only [Bytes3.mk.injEq]
  exact ⟨BitVec.eq_of_toNat_eq h0, BitVec.eq_of_toNat_eq h1, BitVec.eq_of_toNat_eq h2⟩

/-- Four sextets are the same if their numbers are. -/
theorem Sextets.eq_of_toNat {x y : Sextets} (h0 : x.s0.toNat = y.s0.toNat) (h1 : x.s1.toNat = y.s1.toNat)
    (h2 : x.s2.toNat = y.s2.toNat) (h3 : x.s3.toNat = y.s3.toNat) : x = y := by
  cases x; cases y
  simp only [Sextets.mk.injEq]
  exact ⟨BitVec.eq_of_toNat_eq h0, BitVec.eq_of_toNat_eq h1, BitVec.eq_of_toNat_eq h2, BitVec.eq_of_toNat_eq h3⟩

/-- The joiner undoes the slicer (42_decode.md R155). -/
theorem join_slice {q : Sextets} {b0 b1 b2 : Symbol} (h : q = slice b0 b1 b2) :
    join (q.s0.setWidth 8) (q.s1.setWidth 8) (q.s2.setWidth 8) (q.s3.setWidth 8) = ⟨b0, b1, b2⟩ := by
  obtain ⟨j0, j1, j2⟩ := join_sextets_toNat q.s0 q.s1 q.s2 q.s3 rfl
  subst h
  rw [slice_s0_toNat, slice_s1_toNat] at j0
  rw [slice_s1_toNat, slice_s2_toNat] at j1
  rw [slice_s2_toNat, slice_s3_toNat] at j2
  apply Bytes3.eq_of_toNat <;> dsimp only <;> omega

/-- The slicer undoes the joiner on sextets (41_encode.md R135). -/
theorem slice_join {b : Bytes3} {s0 s1 s2 s3 : Sextet}
    (h : b = join (s0.setWidth 8) (s1.setWidth 8) (s2.setWidth 8) (s3.setWidth 8)) :
    slice b.b0 b.b1 b.b2 = ⟨s0, s1, s2, s3⟩ := by
  obtain ⟨j0, j1, j2⟩ := join_sextets_toNat s0 s1 s2 s3 h
  apply Sextets.eq_of_toNat
  · rw [slice_s0_toNat]; dsimp only; omega
  · rw [slice_s1_toNat]; dsimp only; omega
  · rw [slice_s2_toNat]; dsimp only; omega
  · rw [slice_s3_toNat]; dsimp only; omega

/-- Settles O11: the three bytes and the four sextets are the same 24 bits. -/
theorem slicerAndJoinerInverse : Obligations.SlicerAndJoinerInverse := by
  unfold Obligations.SlicerAndJoinerInverse
  exact ⟨fun _ _ _ => join_slice rfl, fun _ _ _ _ _ h => slice_join h⟩

/-- With byte 2 zero, sextet 2 is the low four bits of byte 1 with zero filler (41_encode.md R133, one missing). -/
theorem slice_s2_zero (b0 b1 : Symbol) : (slice b0 b1 0#8).s2 = ((b1 &&& 0x0F#8) <<< 2).setWidth 6 := by
  simp [slice]

/-- With byte 1 zero, sextet 1 is the low two bits of byte 0 with zero filler (41_encode.md R133, two missing). -/
theorem slice_s1_zero (b0 b2 : Symbol) : (slice b0 0#8 b2).s1 = ((b0 &&& 0x03#8) <<< 4).setWidth 6 := by
  simp [slice]

/-- Settles O12: a missing byte leaves only filler bits, which are 0, and `FWD[0]` is 'A'. -/
theorem paddedGroupKeepsZeroFiller : Obligations.PaddedGroupKeepsZeroFiller := by
  unfold Obligations.PaddedGroupKeepsZeroFiller
  refine ⟨fun _ _ _ _ => ⟨rfl, rfl, rfl⟩, fun _ _ _ => rfl, fun b0 b1 => ⟨rfl, ?_⟩, fun b0 => ⟨rfl, rfl, ?_⟩⟩
  · rw [← slice_s2_zero b0 b1]
    rfl
  · rw [← slice_s1_zero b0 0#8]
    rfl

end Sys2Proof.Machine
end

section
/-! The ENC forms (41_encode.md R134, R136, R137): the next state of each, what they leave alone, and the model's stop. -/

namespace Sys2Proof.Machine

variable {s t : State} {last keep : Bool} {d u : Symbol}

/-- `ENC_S` with no cell left stops (log entry 6). -/
theorem encTake_noCell (d : Symbol) (h : s.gc = 3#2) : encTake d s = .stopped .noGroupCell := by
  simp [encTake, store, State.storeSymbol, h]

/-- `ENC_E` with one byte held (41_encode.md R136). -/
theorem encClose_one (h : s.gc = 1#2) :
    encClose s = (s.emitSyms (encGroup s.gb0 0#8 0#8 .two)).setGc 0#2 := by
  simp [encClose, h]

/-- `ENC_E` with two bytes held (41_encode.md R136). -/
theorem encClose_two (h : s.gc = 2#2) :
    encClose s = (s.emitSyms (encGroup s.gb0 s.gb1 0#8 .one)).setGc 0#2 := by
  simp [encClose, h]

/-- `ENC_E` owes nothing where no group is partly filled (41_encode.md R136). -/
theorem encClose_other (h1 : s.gc ≠ 1#2) (h2 : s.gc ≠ 2#2) : encClose s = s.setGc 0#2 := by
  simp [encClose, h1, h2]

/-- A closing beat without a symbol, written for the operation in force, is its closing part under the open message. -/
theorem accept_close_inForce {o : Op} (hf : s.flt = false) (h : InForce o s) :
    accept o.code true false u s = .next (closingPart true { s with busy := true, op := o }) :=
  accept_done hf (.inl rfl) (opening_inForce h) (symbolPart_none u _)

/-- Settles O23: the symbol part under the open message completes the group or stores the byte. -/
theorem encSymbolResult : Obligations.EncSymbolResult := by
  unfold Obligations.EncSymbolResult
  intro s d hf h h3
  by_cases h2 : s.gc = 2#2
  · rw [if_pos h2]
    exact exec_symbol_inForce rfl rfl rfl hf h (encTake_full d h2)
  · refine (exec_symbol_inForce (i := .encS d) rfl rfl rfl hf h (encTake_partial d h2 h3)).trans ?_
    simp [State.setCell, State.setGc, h2]

/-- Under `OP` = ENC the closing part is `ENC_E`, `END` and the end of the message. -/
theorem closingPart_enc (h : s.op = .enc) : closingPart true s = (encClose s).emitEnd.closeMsg := by
  simp [closingPart, closeGroup, h]

/-- Settles O24: the closing part under the open message, by what `GC` says is held. -/
theorem encCloseResult : Obligations.EncCloseResult := by
  unfold Obligations.EncCloseResult
  intro s u hf h
  rw [exec_eq_accept]
  refine (accept_close_inForce (o := .enc) hf h).trans ?_
  rw [closingPart_enc rfl]
  by_cases h1 : s.gc = 1#2
  · rw [encClose_one (by exact h1), if_pos h1]
    rfl
  by_cases h2 : s.gc = 2#2
  · rw [encClose_two (by exact h2), if_neg h1, if_pos h2]
    rfl
  · rw [encClose_other (by exact h1) (by exact h2), if_neg h1, if_neg h2, List.append_nil]
    rfl

/-- For every operation, a symbol that is taken and then a close are the same symbol in a closing beat (R137, 42_decode.md
R164, 43_trimpadding.md R187). -/
theorem accept_symbol_then_close {o : Op} (hf : s.flt = false) (h : InForce o s) (u : Symbol)
    (hs : symbolPart true d { s with busy := true, op := o } = .done t) :
    accept o.code false true d s = .next t ∧ accept o.code true false u t = .next (closingPart true t) ∧
      accept o.code true true d s = .next (closingPart true t) := by
  obtain ⟨hflt, _, hbusy, _⟩ := symbolPart_done hs
  exact ⟨accept_done hf (.inr rfl) (opening_inForce h) hs,
    accept_done (hflt.trans hf) (.inl rfl) (opening_busy hbusy) (symbolPart_none u t),
    accept_done hf (.inl rfl) (opening_inForce h) hs⟩

/-- Settles O25: with a cell left the symbol is taken, and the close follows in the same message. -/
theorem encSymbolThenClose : Obligations.EncSymbolThenClose := by
  unfold Obligations.EncSymbolThenClose
  intro s d u hf h h3
  obtain ⟨t, hs⟩ := symbolPart_takes (s := { s with busy := true, op := .enc }) (d := d) true (fun _ => h3) (by simp)
  exact ⟨t, closingPart true t, accept_symbol_then_close hf h u hs⟩

/-- Settles O26: the symbol part stops, and so does the beat. -/
theorem encStopsWithoutCell : Obligations.EncStopsWithoutCell := by
  unfold Obligations.EncStopsWithoutCell
  intro s d hf h h3
  have hstop : symbolPart true d { s with busy := true, op := .enc } = .stopped .noGroupCell := encTake_noCell d h3
  have haccept : ∀ last, accept Op.enc.code last true d s = .fault .noGroupCell := by
    intro last
    rw [accept_inForce hf h last true d (.inr rfl), hstop]
  exact ⟨haccept false, haccept true⟩

/-- The symbol part of an ENC message writes, of what it could, only the cell the symbol is stored in. -/
theorem symbolPart_enc_frame (ho : s.op = .enc) (h : symbolPart keep d s = .done t) :
    t.pr = s.pr ∧ t.gb2 = s.gb2 ∧ (s.gc ≠ 0#2 ∨ keep = false → t.gb0 = s.gb0) ∧
      (s.gc ≠ 1#2 ∨ keep = false → t.gb1 = s.gb1) := by
  cases keep with
  | false =>
    rw [symbolPart_none] at h
    cases h
    simp
  | true =>
    rw [symbolPart_enc d ho] at h
    rcases encTake_cases d s with ⟨_, hs⟩ | ⟨h2, _, hs⟩ | ⟨_, hs⟩ <;> rw [hs] at h <;> cases h
    · simp
    · simp +contextual [h2]

/-- The closing part writes `PR` only under TRIM. -/
theorem closingPart_pr (last : Bool) (ho : s.op ≠ .trim) : (closingPart last s).pr = s.pr := by
  cases last with
  | false => rfl
  | true =>
    rcases closeGroup_cases s with ⟨_, ds, hc⟩ | ⟨htrim, _⟩
    · simp [closingPart, hc]
    · exact absurd htrim ho

/-- What every beat written for ENC leaves alone where ENC is in force (R139 item 7). -/
theorem accept_enc_frame (hforce : InForce .enc s) (h : accept Op.enc.code last keep d s = .next t) :
    t.flt = s.flt ∧ t.fcode = s.fcode ∧ t.pr = s.pr ∧ t.gb2 = s.gb2 ∧
      (s.gc ≠ 0#2 ∨ keep = false → t.gb0 = s.gb0) ∧ (s.gc ≠ 1#2 ∨ keep = false → t.gb1 = s.gb1) := by
  rcases accept_cases h with ⟨_, rfl⟩ | ⟨_, _, _, rfl⟩ | ⟨_, _, _, hcode, _⟩ | ⟨_, _, s1, hopen, hpart⟩
  · simp
  · simp
  · exact absurd hcode (by decide)
  · obtain rfl : { s with busy := true, op := .enc } = s1 := Option.some.inj ((opening_inForce hforce).symm.trans hopen)
    rcases hpart with ⟨c, hs, _⟩ | ⟨s2, hs, rfl⟩
    · obtain ⟨_, htrim, _⟩ := symbolPart_raised hs
      cases htrim
    · obtain ⟨hflt, hfcode, _, hop, _⟩ := symbolPart_done hs
      obtain ⟨hpr, hgb2, hgb0, hgb1⟩ := symbolPart_enc_frame rfl hs
      obtain ⟨hcflt, hcfcode, _, hcgb0, hcgb1, hcgb2, _⟩ := closingPart_fields last s2
      have hcpr := closingPart_pr last (s := s2) (by simp [hop])
      exact ⟨hcflt.trans hflt, hcfcode.trans hfcode, hcpr.trans hpr, hcgb2.trans hgb2,
        fun hg => hcgb0.trans (hgb0 hg), fun hg => hcgb1.trans (hgb1 hg)⟩

/-- Settles O46: the three forms are beats written for ENC, of which the closing one has no symbol. -/
theorem encFrame : Obligations.EncFrame := by
  unfold Obligations.EncFrame
  intro i d s t hi hforce h
  have hcode : i.opBits = Op.enc.code := by rcases hi with rfl | rfl | rfl <;> rfl
  have hclose : i = .encE d → i.keepBit = false := by rintro rfl; rfl
  have hhost := formsLeaveHostSideAlone i s t h
  rw [exec_eq_accept, hcode] at h
  obtain ⟨hflt, hfcode, hpr, hgb2, hgb0, hgb1⟩ := accept_enc_frame hforce h
  exact ⟨hflt, hfcode, hpr, hgb2, fun hg => hgb0 (hg.imp_right hclose), fun hg => hgb1 (hg.imp_right hclose), hhost⟩

end Sys2Proof.Machine
end

section
/-! The shape of an encoding (41_encode.md R139): alphabet characters, and then the padding. -/

namespace Sys2Proof.Machine

/-- How many '=' end the encoding of `n` bytes (41_encode.md R139 item 3). -/
def encPads (n : Nat) : Nat := (3 - n % 3) % 3

/-- The four sextets of a group, in order. -/
def Sextets.toList (q : Sextets) : List Sextet := [q.s0, q.s1, q.s2, q.s3]

/-- An encoding is a list of alphabet characters and then its padding, four characters to a group (R130, R133). -/
theorem encodeMsg_eq_map_fwd (m : List Symbol) :
    ∃ is : List Sextet, encodeMsg m = is.map fwd ++ List.replicate (encPads m.length) padChar ∧
      is.length + encPads m.length = 4 * ((m.length + 2) / 3) := by
  fun_induction encodeMsg m with
  | case1 => exact ⟨[], rfl, rfl⟩
  | case2 b0 =>
    exact ⟨(slice b0 0#8 0#8).toList.take 2, rfl, by simp [encPads, Sextets.toList]⟩
  | case3 b0 b1 =>
    exact ⟨(slice b0 b1 0#8).toList.take 3, rfl, by simp [encPads, Sextets.toList]⟩
  | case4 b0 b1 b2 m ih =>
    obtain ⟨is, heq, hlen⟩ := ih
    have hpads : encPads (b0 :: b1 :: b2 :: m).length = encPads m.length := by
      simp only [encPads, List.length_cons]
      omega
    refine ⟨(slice b0 b1 b2).toList ++ is, ?_, ?_⟩
    · rw [hpads, heq]
      rfl
    · rw [hpads]
      simp only [Sextets.toList, List.length_append, List.length_cons, List.length_nil]
      omega

/-- A run of '=' behind characters that are none is all that is trailing (43_trimpadding.md R180). -/
theorem trailingPads_append_replicate {t : List Symbol} (h : padChar ∉ t) (k : Nat) :
    trailingPads (t ++ List.replicate k padChar) = k := by
  have hnone : t.reverse.takeWhile (· == padChar) = [] := by
    refine List.takeWhile_eq_nil_iff.mpr fun hl hfirst => h ?_
    rw [← beq_iff_eq.mp hfirst]
    exact List.mem_reverse.mp (List.get_mem _ _)
  rw [trailingPads, List.reverse_append, List.reverse_replicate,
    List.takeWhile_append_of_pos (by simp), hnone,
    List.append_nil, List.length_replicate]

/-- No character of the alphabet is '='. -/
theorem padChar_notMem_map_fwd (is : List Sextet) : padChar ∉ is.map fwd := by
  simp [fwd_ne_pad]

/-- Settles O56: each item is read off the alphabet characters and the padding behind them. -/
theorem encodingShape : Obligations.EncodingShape := by
  unfold Obligations.EncodingShape
  intro m
  obtain ⟨is, heq, hlen⟩ := encodeMsg_eq_map_fwd m
  have hpad := padChar_notMem_map_fwd is
  rw [heq]
  refine ⟨by simpa using hlen, trailingPads_append_replicate hpad _, ?_, ?_⟩
  · have hnone : (is.map fwd).count 0x3D#8 = 0 := List.count_eq_zero_of_not_mem hpad
    rw [List.count_append, hnone, Nat.zero_add]
    exact List.count_replicate_self
  · intro c hc hne
    rcases List.mem_append.mp hc with hc | hc
    · obtain ⟨i, _, hi⟩ := List.mem_map.mp hc
      exact ⟨i, hi⟩
    · exact absurd (List.eq_of_mem_replicate hc) hne

end Sys2Proof.Machine
end

section
/-! The beats of one message, in any spelling (30_encoding.md R87): what holds of the symbols still to come, and is kept by
each symbol taken and used by the close, holds over the whole message. -/

namespace Sys2Proof.Machine

variable {s s1 : State} {w : Beat} {ws l : List Beat} {m : List Symbol}

/-- The first beat of a message that is no bubble opens it: the opening part takes `s` to `s1` there. -/
def OpensTo (l : List Beat) (s s1 : State) : Prop :=
  ∀ w, l.find? (fun w => !beatBubble w) = some w → opening (beatOp w) s = some s1

/-- A beat that is no bubble closes or carries a symbol. -/
theorem last_or_keep_of_not_bubble (h : beatBubble w = false) : beatLast w = true ∨ beatKeep w = true := by
  cases hl : beatLast w <;> cases hk : beatKeep w <;> simp [beatBubble, hl, hk] at h ⊢

/-- The first beat of a message's list: a bubble, the closing beat, or a beat with more to come (R87). -/
theorem messageSymbols_cons_cases (h : messageSymbols (w :: ws) = some m) :
    (beatBubble w = true ∧ messageSymbols ws = some m) ∨
    (beatBubble w = false ∧ beatLast w = true ∧ ws = [] ∧ m = beatSymbols w ++ []) ∨
    (beatBubble w = false ∧ beatLast w = false ∧ ∃ m', messageSymbols ws = some m' ∧ m = beatSymbols w ++ m') := by
  cases hb : beatBubble w with
  | true => exact .inl ⟨rfl, by simpa [messageSymbols, hb] using h⟩
  | false =>
    cases hl : beatLast w with
    | true =>
      simp only [messageSymbols, hb, hl, Bool.false_eq_true, if_true, if_false, Option.ite_none_right_eq_some,
        Option.some.injEq] at h
      obtain ⟨hws, hm⟩ := h
      exact .inr (.inl ⟨rfl, rfl, hws, by simp [hm]⟩)
    | false =>
      cases hm : messageSymbols ws with
      | none => simp [messageSymbols, hb, hl, hm] at h
      | some m' => exact .inr (.inr ⟨rfl, rfl, m', rfl, by simpa [messageSymbols, hb, hl, hm] using h.symm⟩)

/-- A bubble among the beats changes nothing (40_framing.md R111). -/
theorem acceptBeats_bubble (h : beatBubble w = true) (ws : List Beat) (s : State) :
    acceptBeats (w :: ws) s = acceptBeats ws s := by
  have hbits : beatLast w = false ∧ beatKeep w = false := by simpa [beatBubble] using h
  obtain ⟨hl, hk⟩ := hbits
  have hx : exec (decode w) s = .next s := by rw [exec_decode, hl, hk, accept_bubble]
  simp only [acceptBeats, hx]

/-- What holds of a state and the symbols still to come is kept by every symbol that is taken. -/
def KeptBySymbols (P : List Symbol → State → Prop) : Prop :=
  ∀ d m s, P (d :: m) s → ∃ t, symbolPart true d s = .done t ∧ P m t

variable {P : List Symbol → State → Prop}

/-- The symbol part of a beat takes the symbol the beat carries, if any. -/
theorem KeptBySymbols.symbolPart_beat (hP : KeptBySymbols P) (h : P (beatSymbols w ++ m) s) :
    ∃ t, symbolPart (beatKeep w) (beatData w) s = .done t ∧ P m t := by
  cases hk : beatKeep w with
  | false => exact ⟨s, symbolPart_none _ s, by simpa [beatSymbols, hk] using h⟩
  | true => exact hP (beatData w) m s (by simpa [beatSymbols, hk] using h)

/-- A beat that is no bubble takes its symbol, if any, in the state its opening part gives, and then has its closing part. -/
theorem KeptBySymbols.exec_beat (hP : KeptBySymbols P) (hb : beatBubble w = false) (ho : opening (beatOp w) s = some s1)
    (hf : s.flt = false) (h : P (beatSymbols w ++ m) s1) :
    ∃ t, exec (decode w) s = .next (closingPart (beatLast w) t) ∧ P m t ∧ t.flt = s1.flt ∧ t.busy = s1.busy := by
  obtain ⟨t, hs, ht⟩ := hP.symbolPart_beat h
  obtain ⟨hflt, _, hbusy, _⟩ := symbolPart_done hs
  exact ⟨t, (exec_decode w s).trans (accept_done hf (last_or_keep_of_not_bubble hb) ho hs), ht, hflt, hbusy⟩

/-- Accepting the beats of a message, from the state `s1` it opens to, ends in the closing part of a state with no symbol to
come. -/
theorem KeptBySymbols.acceptBeats_message (hP : KeptBySymbols P) (hl : messageSymbols l = some m) (ho : OpensTo l s s1)
    (hf : s.flt = false) (hf1 : s1.flt = false) (hb1 : s1.busy = true) (h : P m s1) :
    ∃ t, acceptBeats l s = .next (closingPart true t) ∧ P [] t ∧ t.flt = false := by
  induction l generalizing s s1 m with
  | nil => cases hl
  | cons w ws ih =>
    rcases messageSymbols_cons_cases hl with ⟨hb, hm⟩ | ⟨hb, hlast, rfl, rfl⟩ | ⟨hb, hlast, m', hm, rfl⟩
    · rw [acceptBeats_bubble hb]
      exact ih hm (fun v hv => ho v (by simpa [hb] using hv)) hf hf1 hb1 h
    · obtain ⟨t, hx, ht, htf, _⟩ := hP.exec_beat hb (ho w (by simp [hb])) hf h
      exact ⟨t, by simp only [acceptBeats, hx, hlast], ht, htf.trans hf1⟩
    · obtain ⟨t, hx, ht, htf, htb⟩ := hP.exec_beat hb (ho w (by simp [hb])) hf h
      have hnext : exec (decode w) s = .next t := by rw [hx, hlast]; rfl
      have htf := htf.trans hf1
      have htb := htb.trans hb1
      obtain ⟨t', hrun, hend⟩ := ih hm (fun _ _ => opening_busy htb) htf htf htb ht
      exact ⟨t', by simp only [acceptBeats, hnext, hrun], hend⟩

/-- A whole message: its first beat that is no bubble bears its operation, and the beats its symbols (R87). -/
theorem readMessage_eq_some {op : BitVec 2} (h : readMessage l = some (op, m)) :
    messageSymbols l = some m ∧ ∀ w, l.find? (fun w => !beatBubble w) = some w → beatOp w = op := by
  induction l with
  | nil => cases h
  | cons w ws ih =>
    cases hb : beatBubble w with
    | true =>
      obtain ⟨hm, hop⟩ := ih (by simpa [readMessage, hb] using h)
      exact ⟨by simpa [messageSymbols, hb] using hm, fun v hv => hop v (by simpa [hb] using hv)⟩
    | false =>
      have hfirst : (w :: ws).find? (fun w => !beatBubble w) = some w := by simp [hb]
      simp only [readMessage, hb, Bool.false_eq_true, if_false] at h
      split at h
      · cases h
      · split at h
        · cases h
          exact ⟨‹_›, fun v hv => by rw [Option.some.inj (hfirst.symm.trans hv)]⟩
        · cases h

/-- A whole message of operation `o`, accepted between messages: if what `P` says holds with all its symbols to come once it
is opened, the beats end in the closing part of a state of which it holds with none (40_framing.md R112, R116). -/
theorem KeptBySymbols.readMessage_accepted {o : Op} (hP : KeptBySymbols P) (hl : readMessage l = some (o.code, m))
    (hf : s.flt = false) (hb : s.busy = false) (h : P m (s.openMsg o)) :
    ∃ t, acceptBeats l s = .next (closingPart true t) ∧ P [] t ∧ t.flt = false := by
  obtain ⟨hm, hop⟩ := readMessage_eq_some hl
  have hopen : OpensTo l s (s.openMsg o) := by
    intro w hw
    rw [hop w hw]
    exact opening_idle o hb
  exact hP.acceptBeats_message hm hopen hf hf rfl h

end Sys2Proof.Machine
end

section
/-! One ENC message emits the encoding of its symbols (41_encode.md R138): what is put out and what is still to be encoded
stay the same in sum. -/

namespace Sys2Proof.Machine

variable {s t : State} {out : List OutBeat} {m : List Symbol}

/-- The bytes an ENC message holds in `GB`: the first `GC` of them (10_state.md R27). -/
def State.encHeld (s : State) : List Symbol := [s.gb0, s.gb1].take s.gc.toNat

/-- Under ENC, what is put out and the encoding of the bytes held and the symbols `m` to come are `out` together. -/
def EncodesTo (out : List OutBeat) (m : List Symbol) (s : State) : Prop :=
  s.op = .enc ∧ s.gc ≠ 3#2 ∧ s.oq ++ (encodeMsg (s.encHeld ++ m)).map symBeat = out

/-- Every symbol taken leaves it so: it is held, or its group is put out (R134). -/
theorem keptBySymbols_encodesTo (out : List OutBeat) : KeptBySymbols (EncodesTo out) := by
  rintro d m s ⟨hop, h3, hout⟩
  rw [symbolPart_enc d hop]
  rcases bits2_cases s.gc with hg | hg | hg | hg
  · refine ⟨_, encTake_partial d (by simp [hg]) h3, hop, by simp [hg], ?_⟩
    simpa [State.encHeld, hg] using hout
  · refine ⟨_, encTake_partial d (by simp [hg]) h3, hop, by simp [hg], ?_⟩
    simpa [State.encHeld, hg] using hout
  · refine ⟨_, encTake_full d hg, hop, by simp, ?_⟩
    simpa [State.encHeld, hg, encodeMsg] using hout
  · exact absurd hg h3

/-- With no symbol to come, `ENC_E` puts out the rest (R136). -/
theorem encClose_of_encodesTo (h : EncodesTo out [] s) : (encClose s).oq = out ∧ (encClose s).gc = 0#2 := by
  obtain ⟨_, h3, hout⟩ := h
  rcases bits2_cases s.gc with hg | hg | hg | hg
  · rw [encClose_other (by simp [hg]) (by simp [hg])]
    simpa [State.encHeld, hg, encodeMsg] using hout
  · rw [encClose_one hg]
    simpa [State.encHeld, hg, encodeMsg] using hout
  · rw [encClose_two hg]
    simpa [State.encHeld, hg, encodeMsg] using hout
  · exact absurd hg h3

/-- Settles O52: at the opening nothing is held, so that all of `m` is to be encoded, and at the close nothing is left. -/
theorem encMessageEmitsENCODE : Obligations.EncMessageEmitsENCODE := by
  unfold Obligations.EncMessageEmitsENCODE
  intro s l m hi hb hf hl
  obtain ⟨_, _, _, hg, _⟩ := betweenMessages_of_inv hi hf hb
  have hstart : EncodesTo (s.oq ++ (encodeMsg m).map symBeat) m (s.openMsg .enc) :=
    ⟨rfl, by simp [hg], by simp [State.encHeld, hg]⟩
  obtain ⟨t, hrun, hend, htf⟩ := (keptBySymbols_encodesTo _).readMessage_accepted (o := .enc) hl hf hb hstart
  have ⟨hop, _⟩ := hend
  obtain ⟨hoq, hgc⟩ := encClose_of_encodesTo hend
  obtain ⟨hcf, _, _, _, _, _, _, _, _, _, hcb⟩ := closingPart_fields true t
  refine ⟨_, hrun, ?_, hcb, ?_, hcf.trans htf⟩
  · rw [closingPart_enc hop]
    simp [hoq]
  · rw [closingPart_enc hop]
    simp [hgc]

end Sys2Proof.Machine
end

section
/-! The joiner with the truncation carried out (42_decode.md R154, R155). -/

namespace Sys2Proof.Machine

/-- Settles O9: the formulas were read on numbers to undo the slicer. -/
theorem joinerFormulas : Obligations.JoinerFormulas := join_toNat

/-- A shift drops what a mask of the top bits would have dropped before it. -/
theorem mask_shiftLeft {w : Nat} (v : BitVec w) (k : Nat) : (v &&& (BitVec.allOnes w >>> k)) <<< k = v <<< k := by
  ext i hi
  by_cases hik : i < k
  · simp [hik]
  · have hbit : k + (i - k) < w := by omega
    simp [hik, hbit]

/-- `trunc_8` of a lossless left shift is the shift on 8 bits (00_scope.md R8). -/
theorem trunc8_shiftLeft (v : Symbol) (k : Nat) : trunc8 (v.setWidth 16 <<< k) = v <<< k := by
  rw [trunc8, BitVec.setWidth_shiftLeft_of_le (by decide), BitVec.setWidth_setWidth_of_le v (by decide),
    BitVec.setWidth_eq]

/-- `trunc_8` of a right shift is the shift on 8 bits. -/
theorem trunc8_ushiftRight (v : Symbol) (k : Nat) : trunc8 (v.setWidth 16 >>> k) = v >>> k := by
  apply BitVec.eq_of_toNat_eq
  have hlt : v.toNat >>> k < 256 := (Nat.shiftRight_le _ _).trans_lt v.isLt
  rw [trunc8_toNat, BitVec.toNat_ushiftRight, BitVec.toNat_ushiftRight, BitVec.toNat_setWidth_of_le (by decide),
    Nat.mod_eq_of_lt hlt]

/-- `trunc_8` cuts the two sides of an "or". -/
theorem trunc8_or (x y : BitVec 16) : trunc8 (x ||| y) = trunc8 x ||| trunc8 y := BitVec.setWidth_or

/-- The joiner's formulas on 8 bits, masked where a shift drops bits (R155). -/
theorem join_masked (v0 v1 v2 v3 : Symbol) : join v0 v1 v2 v3 =
    { b0 := ((v0 &&& 0x3F#8) <<< 2) ||| (v1 >>> 4)
      b1 := ((v1 &&& 0x0F#8) <<< 4) ||| (v2 >>> 2)
      b2 := ((v2 &&& 0x03#8) <<< 6) ||| v3 } := by
  have h0 : (v0 &&& 0x3F#8) <<< 2 = v0 <<< 2 := mask_shiftLeft v0 2
  have h1 : (v1 &&& 0x0F#8) <<< 4 = v1 <<< 4 := mask_shiftLeft v1 4
  have h2 : (v2 &&& 0x03#8) <<< 6 = v2 <<< 6 := mask_shiftLeft v2 6
  have h3 : trunc8 (v3.setWidth 16) = v3 := trunc8_ushiftRight v3 0
  rw [h0, h1, h2]
  simp only [join, trunc8_or, trunc8_shiftLeft, trunc8_ushiftRight, h3]

/-- Settles O10: the masked forms, and in each the value 255 evaluated. -/
theorem joinerTruncatedForms : Obligations.JoinerTruncatedForms := by
  unfold Obligations.JoinerTruncatedForms
  refine ⟨join_masked, fun v1 v2 v3 => ?_, fun v0 v2 v3 => ?_, fun v0 v1 v3 => ?_, fun v0 v1 v2 => ?_⟩
  · rw [join_masked]; rfl
  · rw [join_masked]; exact ⟨rfl, rfl⟩
  · rw [join_masked]; exact ⟨rfl, rfl⟩
  · rw [join_masked]; exact BitVec.or_allOnes

end Sys2Proof.Machine
end

section
/-! One DEC group (42_decode.md R156, R157): which bytes are emitted, and that the value read for a '=' is not among what
they show. -/

namespace Sys2Proof.Machine

variable {p : Params} {c0 c1 c2 c3 : Symbol}

/-- The byte a '=' stands for is not emitted (R156). -/
theorem unlessPad_pad (b : Symbol) : unlessPad padChar b = [] := if_pos rfl

/-- The byte another character stands for is emitted (R156). -/
theorem unlessPad_other {c : Symbol} (b : Symbol) (h : c ≠ padChar) : unlessPad c b = [b] := if_neg h

/-- A group without '=' at characters 2 and 3 emits all three bytes (R156). -/
theorem decGroup_whole (h2 : c2 ≠ padChar) (h3 : c3 ≠ padChar) {b : Bytes3}
    (h : join (rev p c0) (rev p c1) (rev p c2) (rev p c3) = b) : decGroup p c0 c1 c2 c3 = [b.b0, b.b1, b.b2] := by
  simp [decGroup, unlessPad_other _ h2, unlessPad_other _ h3, h]

/-- A group with a final '=' emits two bytes, in which no value for the '=' enters (R156, R162). -/
theorem decGroup_pad (h2 : c2 ≠ padChar) {b : Bytes3} {v3 : Symbol}
    (h : join (rev p c0) (rev p c1) (rev p c2) v3 = b) : decGroup p c0 c1 c2 padChar = [b.b0, b.b1] := by
  subst h
  rw [decGroup, unlessPad_other _ h2, unlessPad_pad]
  rfl

/-- A group with a final '==' emits one byte, in which no value for either '=' enters (R156, R162). -/
theorem decGroup_pad_pad {b : Bytes3} {v2 v3 : Symbol} (h : join (rev p c0) (rev p c1) v2 v3 = b) :
    decGroup p c0 c1 padChar padChar = [b.b0] := by
  subst h
  rw [decGroup, unlessPad_pad, unlessPad_pad]
  rfl

/-- A group with '=' at character 2 alone emits bytes 0 and 2 (R156). -/
theorem decGroup_inner_pad (h3 : c3 ≠ padChar) {b : Bytes3}
    (h : join (rev p c0) (rev p c1) (rev p padChar) (rev p c3) = b) : decGroup p c0 c1 padChar c3 = [b.b0, b.b2] := by
  simp [decGroup, unlessPad_pad, unlessPad_other _ h3, h]

/-- Settles O13: one lemma per row of the table. -/
theorem emitMaskTable : Obligations.EmitMaskTable := by
  unfold Obligations.EmitMaskTable
  intro p c0 c1 c2 c3 b hb
  refine ⟨fun h2 h3 => decGroup_whole h2 h3 hb.symm, fun h2 h3 => ?_, fun h2 h3 => ?_, fun h2 h3 => ?_⟩
  · subst h3
    exact decGroup_pad h2 hb.symm
  · subst h2 h3
    exact decGroup_pad_pad hb.symm
  · subst h2
    exact decGroup_inner_pad h3 hb.symm

/-- Settles O59: the values of alphabet characters are sextets whatever the arguments, and a final '=' or '==' shows
none. -/
theorem argumentsHiddenInPaddedGroups : Obligations.ArgumentsHiddenInPaddedGroups := by
  unfold Obligations.ArgumentsHiddenInPaddedGroups
  have hrev : ∀ (p p' : Params) i, rev p (fwd i) = rev p' (fwd i) := fun p p' i => by rw [rev_fwd, rev_fwd]
  rintro p p' _ _ c2 c3 ⟨i0, rfl⟩ ⟨i1, rfl⟩ (⟨i2, rfl⟩ | ⟨rfl, rfl⟩) h3
  · rcases h3 with ⟨i3, rfl⟩ | hpad
    · simp only [decGroup, hrev p p']
    · obtain rfl : c3 = padChar := hpad
      rw [decGroup_pad (v3 := 0#8) (fwd_ne_pad i2) rfl, decGroup_pad (v3 := 0#8) (fwd_ne_pad i2) rfl]
      simp only [hrev p p']
  · change decGroup p _ _ padChar padChar = decGroup p' _ _ padChar padChar
    rw [decGroup_pad_pad (v2 := 0#8) (v3 := 0#8) rfl, decGroup_pad_pad (v2 := 0#8) (v3 := 0#8) rfl]
    simp only [hrev p p']

/-- A group emits from one to three bytes (R156). -/
theorem decGroup_length (p : Params) (c0 c1 c2 c3 : Symbol) :
    1 ≤ (decGroup p c0 c1 c2 c3).length ∧ (decGroup p c0 c1 c2 c3).length ≤ 3 := by
  have hle : ∀ c b, (unlessPad c b).length ≤ 1 := by
    intro c b
    unfold unlessPad
    split <;> simp
  have h2 := hle c2 (join (rev p c0) (rev p c1) (rev p c2) (rev p c3)).b1
  have h3 := hle c3 (join (rev p c0) (rev p c1) (rev p c2) (rev p c3)).b2
  simp only [decGroup, List.length_cons, List.length_append]
  omega

end Sys2Proof.Machine
end

section
/-! `DECODE` group by group (42_decode.md R150, R151): the padding of a text, the length of a decoding, and that `DECODE`
undoes `ENCODE` (R163). -/

namespace Sys2Proof.Machine

variable {p : Params} {t : List Symbol}

/-- A text of whole groups needs no padding (R151). -/
theorem padText_of_whole (h : t.length % 4 = 0) : padText t = t := by
  simp [padText, h]

/-- A padded text is one of whole groups, as many as the text has begun (R151). -/
theorem padText_length (t : List Symbol) : (padText t).length = 4 * ((t.length + 3) / 4) := by
  simp only [padText, List.length_append, List.length_replicate]
  omega

/-- A whole group in front changes nothing of the padding (R151). -/
theorem padText_group (c0 c1 c2 c3 : Symbol) (t : List Symbol) :
    padText (c0 :: c1 :: c2 :: c3 :: t) = c0 :: c1 :: c2 :: c3 :: padText t := by
  have hlen : (c0 :: c1 :: c2 :: c3 :: t).length % 4 = t.length % 4 := Nat.add_mod_right t.length 4
  rw [padText, hlen, padText]
  rfl

/-- A text with its missing padding decodes to the same bytes (R151). -/
theorem decodeMsg_padText (p : Params) (t : List Symbol) : decodeMsg p (padText t) = decodeMsg p t := by
  have hwhole : (padText t).length % 4 = 0 := by rw [padText_length]; omega
  rw [decodeMsg, padText_of_whole hwhole, decodeMsg]

theorem decodeMsg_nil (p : Params) : decodeMsg p [] = [] := rfl

/-- A whole group is decoded before the rest (R150). -/
theorem decodeMsg_group (p : Params) (c0 c1 c2 c3 : Symbol) (t : List Symbol) :
    decodeMsg p (c0 :: c1 :: c2 :: c3 :: t) = decGroup p c0 c1 c2 c3 ++ decodeMsg p t := by
  rw [decodeMsg, padText_group, decodeGroups, decodeMsg]

/-- One character left over is completed with three '=' (R151). -/
theorem decodeMsg_one (p : Params) (c0 : Symbol) : decodeMsg p [c0] = decGroup p c0 padChar padChar padChar := by
  rw [← decodeMsg_padText]
  exact (decodeMsg_group p c0 padChar padChar padChar []).trans (List.append_nil _)

/-- Two characters left over are completed with two '=' (R151). -/
theorem decodeMsg_two (p : Params) (c0 c1 : Symbol) : decodeMsg p [c0, c1] = decGroup p c0 c1 padChar padChar := by
  rw [← decodeMsg_padText]
  exact (decodeMsg_group p c0 c1 padChar padChar []).trans (List.append_nil _)

/-- Three characters left over are completed with one '=' (R151). -/
theorem decodeMsg_three (p : Params) (c0 c1 c2 : Symbol) : decodeMsg p [c0, c1, c2] = decGroup p c0 c1 c2 padChar := by
  rw [← decodeMsg_padText]
  exact (decodeMsg_group p c0 c1 c2 padChar []).trans (List.append_nil _)

/-- Each whole group gives from one to three bytes. -/
theorem decodeGroups_length (p : Params) (t : List Symbol) :
    t.length / 4 ≤ (decodeGroups p t).length ∧ (decodeGroups p t).length ≤ 3 * (t.length / 4) := by
  fun_induction decodeGroups p t with
  | case1 c0 c1 c2 c3 t ih =>
    have hgroup := decGroup_length p c0 c1 c2 c3
    simp only [List.length_append, List.length_cons]
    omega
  | case2 t hshort =>
    have hlt : t.length < 4 := by
      rcases t with _ | ⟨c0, _ | ⟨c1, _ | ⟨c2, _ | ⟨c3, t⟩⟩⟩⟩
      · simp
      · simp
      · simp
      · simp
      · exact absurd rfl (hshort c0 c1 c2 c3 t)
    simp [Nat.div_eq_of_lt hlt]

/-- Settles O57: the padded text has its groups, each of one to three bytes. -/
theorem decodingShape : Obligations.DecodingShape := by
  unfold Obligations.DecodingShape
  intro p t
  obtain ⟨hlow, hhigh⟩ := decodeGroups_length p (padText t)
  rw [padText_length, Nat.mul_div_cancel_left _ (by decide)] at hlow hhigh
  exact ⟨hlow, hhigh, decodeMsg_padText p t⟩

/-- The values of a group's alphabet characters join to the bytes the group was cut from (R155). -/
theorem join_rev_fwd_slice (p : Params) (b0 b1 b2 : Symbol) :
    join (rev p (fwd (slice b0 b1 b2).s0)) (rev p (fwd (slice b0 b1 b2).s1)) (rev p (fwd (slice b0 b1 b2).s2))
      ((slice b0 b1 b2).s3.setWidth 8) = ⟨b0, b1, b2⟩ := by
  simp only [rev_fwd]
  exact join_slice rfl

/-- `DECODE` undoes `ENCODE`, group by group: what a padded group hides is only the filler (R163). -/
theorem decodeMsg_encodeMsg (p : Params) (m : List Symbol) : decodeMsg p (encodeMsg m) = m := by
  fun_induction encodeMsg m with
  | case1 => rfl
  | case2 b0 =>
    have hjoin := join_rev_fwd_slice p b0 0#8 0#8
    rw [rev_fwd p (slice b0 0#8 0#8).s2] at hjoin
    refine (decodeMsg_group p _ _ _ _ []).trans ?_
    rw [decGroup_pad_pad hjoin, decodeMsg_nil]
    rfl
  | case3 b0 b1 =>
    have hjoin := join_rev_fwd_slice p b0 b1 0#8
    refine (decodeMsg_group p _ _ _ _ []).trans ?_
    rw [decGroup_pad (fwd_ne_pad _) hjoin, decodeMsg_nil]
    rfl
  | case4 b0 b1 b2 m ih =>
    have hjoin := join_rev_fwd_slice p b0 b1 b2
    rw [← rev_fwd p (slice b0 b1 b2).s3] at hjoin
    refine (decodeMsg_group p _ _ _ _ (encodeMsg m)).trans ?_
    rw [decGroup_whole (fwd_ne_pad _) (fwd_ne_pad _) hjoin, ih]
    rfl

/-- An encoding is its alphabet characters, padded to whole groups (41_encode.md R139, R151). -/
theorem encodeMsg_eq_padText (m : List Symbol) : ∃ is : List Sextet, encodeMsg m = padText (is.map fwd) := by
  obtain ⟨is, heq, hlen⟩ := encodeMsg_eq_map_fwd m
  have hpads : (4 - is.length % 4) % 4 = encPads m.length := by
    unfold encPads at hlen ⊢
    omega
  exact ⟨is, by rw [heq, padText, List.length_map, hpads]⟩

/-- Alphabet characters end in no '=' to cut (43_trimpadding.md R180). -/
theorem trimMsg_map_fwd (is : List Sextet) : trimMsg (is.map fwd) = is.map fwd := by
  have hnone : trailingPads (is.map fwd) = 0 := by
    simpa using trailingPads_append_replicate (padChar_notMem_map_fwd is) 0
  rw [trimMsg, hnone, Nat.sub_zero, List.take_length]

/-- Settles O55: trimming cuts exactly the padding, which `DECODE` supplies again. -/
theorem decodeInvertsEncode : Obligations.DecodeInvertsEncode := by
  unfold Obligations.DecodeInvertsEncode
  intro p m
  refine ⟨decodeMsg_encodeMsg p m, ?_⟩
  obtain ⟨is, heq⟩ := encodeMsg_eq_padText m
  calc decodeMsg p (trimMsg (encodeMsg m)) = decodeMsg p (is.map fwd) := by
        rw [heq, padText, trimMsg_pads, trimMsg_map_fwd]
    _ = decodeMsg p (encodeMsg m) := by rw [heq, decodeMsg_padText]
    _ = m := decodeMsg_encodeMsg p m

end Sys2Proof.Machine
end

section
/-! The DEC forms (42_decode.md R158, R160, R164): the next state of each, and what they leave alone. -/

namespace Sys2Proof.Machine

variable {s t : State} {last keep : Bool} {d : Symbol}

/-- `DEC_E` with one character held (42_decode.md R160). -/
theorem decClose_one (h : s.gc = 1#2) :
    decClose s = (s.emitSyms (decGroup s.cfg s.gb0 padChar padChar padChar)).setGc 0#2 := by
  simp [decClose, h]

/-- `DEC_E` with two characters held (42_decode.md R160). -/
theorem decClose_two (h : s.gc = 2#2) :
    decClose s = (s.emitSyms (decGroup s.cfg s.gb0 s.gb1 padChar padChar)).setGc 0#2 := by
  simp [decClose, h]

/-- `DEC_E` with three characters held (42_decode.md R160). -/
theorem decClose_three (h : s.gc = 3#2) :
    decClose s = (s.emitSyms (decGroup s.cfg s.gb0 s.gb1 s.gb2 padChar)).setGc 0#2 := by
  simp [decClose, h]

/-- `DEC_E` owes nothing where no group is begun (42_decode.md R160). -/
theorem decClose_zero (h : s.gc = 0#2) : decClose s = s.setGc 0#2 := by
  simp [decClose, h]

/-- Under `OP` = DEC the closing part is `DEC_E`, `END` and the end of the message. -/
theorem closingPart_dec (h : s.op = .dec) : closingPart true s = (decClose s).emitEnd.closeMsg := by
  simp [closingPart, closeGroup, h]

/-- Settles O27: the symbol part under the open message completes the group or stores the character. -/
theorem decSymbolResult : Obligations.DecSymbolResult := by
  unfold Obligations.DecSymbolResult
  intro s c hf h
  by_cases h3 : s.gc = 3#2
  · rw [if_pos h3]
    exact exec_symbol_inForce rfl rfl rfl hf h (decTake_full c h3)
  · rw [if_neg h3]
    exact exec_symbol_inForce rfl rfl rfl hf h (decTake_partial c h3)

/-- Settles O28: the closing part under the open message, by what `GC` says is held. -/
theorem decCloseResult : Obligations.DecCloseResult := by
  unfold Obligations.DecCloseResult
  intro s u hf h
  rw [exec_eq_accept]
  refine (accept_close_inForce (o := .dec) hf h).trans ?_
  rw [closingPart_dec rfl]
  rcases bits2_cases s.gc with hg | hg | hg | hg
  · rw [decClose_zero (by exact hg)]
    simp [hg, State.setGc, State.emitEnd, State.closeMsg]
  · rw [decClose_one (by exact hg), hg]
    rfl
  · rw [decClose_two (by exact hg), hg]
    rfl
  · rw [decClose_three (by exact hg), hg]
    rfl

/-- Settles O29: a DEC message takes every symbol, and the close follows in the same message. -/
theorem decSymbolThenClose : Obligations.DecSymbolThenClose := by
  unfold Obligations.DecSymbolThenClose
  intro s c u hf h
  obtain ⟨t, hs⟩ := symbolPart_takes (s := { s with busy := true, op := .dec }) (d := c) true (by simp) (by simp)
  exact ⟨t, closingPart true t, accept_symbol_then_close hf h u hs⟩

/-- The symbol part of a DEC message writes, of what it could, only the cell the symbol is stored in. -/
theorem symbolPart_dec_frame (ho : s.op = .dec) (h : symbolPart keep d s = .done t) :
    t.pr = s.pr ∧ (s.gc ≠ 0#2 ∨ keep = false → t.gb0 = s.gb0) ∧ (s.gc ≠ 1#2 ∨ keep = false → t.gb1 = s.gb1) ∧
      (s.gc ≠ 2#2 ∨ keep = false → t.gb2 = s.gb2) := by
  cases keep with
  | false =>
    rw [symbolPart_none] at h
    cases h
    simp
  | true =>
    rw [symbolPart_dec d ho] at h
    rcases decTake_cases d s with ⟨_, hs⟩ | ⟨_, hs⟩ <;> rw [hs] at h <;> cases h
    · simp
    · simp +contextual

/-- A beat written for ENC or DEC, where that is in force, leaves the state as it is if it is not taken or a bubble, and
otherwise ends in the closing part of what its symbol part gives: neither operation raises. -/
theorem accept_inForce_cases {o : Op} (ho : o ≠ .trim) (hforce : InForce o s)
    (h : accept o.code last keep d s = .next t) :
    t = s ∨ ∃ s2, symbolPart keep d { s with busy := true, op := o } = .done s2 ∧ t = closingPart last s2 := by
  rcases accept_cases h with ⟨_, rfl⟩ | ⟨_, _, _, rfl⟩ | ⟨_, _, _, hcode, _⟩ | ⟨_, _, s1, hopen, hpart⟩
  · exact .inl rfl
  · exact .inl rfl
  · have hnone := ofCode_eq_none.mpr hcode
    rw [ofCode_code] at hnone
    cases hnone
  · obtain rfl : { s with busy := true, op := o } = s1 := Option.some.inj ((opening_inForce hforce).symm.trans hopen)
    rcases hpart with ⟨c, hs, _⟩ | hdone
    · obtain ⟨_, htrim, _⟩ := symbolPart_raised hs
      exact absurd htrim ho
    · exact .inr hdone

/-- What every beat written for DEC leaves alone where DEC is in force (42_decode.md R165 item 5). -/
theorem accept_dec_frame (hforce : InForce .dec s) (h : accept Op.dec.code last keep d s = .next t) :
    t.flt = s.flt ∧ t.fcode = s.fcode ∧ t.pr = s.pr ∧ (s.gc ≠ 0#2 ∨ keep = false → t.gb0 = s.gb0) ∧
      (s.gc ≠ 1#2 ∨ keep = false → t.gb1 = s.gb1) ∧ (s.gc ≠ 2#2 ∨ keep = false → t.gb2 = s.gb2) := by
  rcases accept_inForce_cases (by simp) hforce h with rfl | ⟨s2, hs, rfl⟩
  · simp
  · obtain ⟨hflt, hfcode, _, hop, _⟩ := symbolPart_done hs
    obtain ⟨hpr, hgb0, hgb1, hgb2⟩ := symbolPart_dec_frame rfl hs
    obtain ⟨hcflt, hcfcode, _, hcgb0, hcgb1, hcgb2, _⟩ := closingPart_fields last s2
    have hcpr := closingPart_pr last (s := s2) (by simp [hop])
    exact ⟨hcflt.trans hflt, hcfcode.trans hfcode, hcpr.trans hpr, fun hg => hcgb0.trans (hgb0 hg),
      fun hg => hcgb1.trans (hgb1 hg), fun hg => hcgb2.trans (hgb2 hg)⟩

/-- Settles O47: the three forms are beats written for DEC, of which the closing one has no symbol. -/
theorem decFrame : Obligations.DecFrame := by
  unfold Obligations.DecFrame
  intro i c s t hi hforce h
  have hcode : i.opBits = Op.dec.code := by rcases hi with rfl | rfl | rfl <;> rfl
  have hclose : i = .decE c → i.keepBit = false := by rintro rfl; rfl
  have hhost := formsLeaveHostSideAlone i s t h
  rw [exec_eq_accept, hcode] at h
  obtain ⟨hflt, hfcode, hpr, hgb0, hgb1, hgb2⟩ := accept_dec_frame hforce h
  exact ⟨hflt, hfcode, hpr, fun hg => hgb0 (hg.imp_right hclose), fun hg => hgb1 (hg.imp_right hclose),
    fun hg => hgb2 (hg.imp_right hclose), hhost⟩

end Sys2Proof.Machine
end

section
/-! One DEC message emits the decoding of its symbols (42_decode.md R161): what is put out and what is still to be decoded
stay the same in sum. -/

namespace Sys2Proof.Machine

variable {s : State} {p : Params} {out : List OutBeat}

/-- The characters a DEC message holds in `GB`: the first `GC` of them (10_state.md R27). -/
def State.decHeld (s : State) : List Symbol := [s.gb0, s.gb1, s.gb2].take s.gc.toNat

/-- Under DEC with the parameters `p`, what is put out and the decoding of the characters held and the symbols `m` to come
are `out` together. -/
def DecodesTo (p : Params) (out : List OutBeat) (m : List Symbol) (s : State) : Prop :=
  s.op = .dec ∧ s.cfg = p ∧ s.oq ++ (decodeMsg p (s.decHeld ++ m)).map symBeat = out

/-- Every symbol taken leaves it so: it is held, or its group is put out (R158). -/
theorem keptBySymbols_decodesTo (p : Params) (out : List OutBeat) : KeptBySymbols (DecodesTo p out) := by
  rintro d m s ⟨hop, hcfg, hout⟩
  rw [symbolPart_dec d hop]
  rcases bits2_cases s.gc with hg | hg | hg | hg
  · refine ⟨_, decTake_partial d (by simp [hg]), hop, hcfg, ?_⟩
    simpa [State.decHeld, hg] using hout
  · refine ⟨_, decTake_partial d (by simp [hg]), hop, hcfg, ?_⟩
    simpa [State.decHeld, hg] using hout
  · refine ⟨_, decTake_partial d (by simp [hg]), hop, hcfg, ?_⟩
    simpa [State.decHeld, hg] using hout
  · refine ⟨_, decTake_full d hg, hop, hcfg, ?_⟩
    simpa [State.decHeld, hg, hcfg, decodeMsg_group] using hout

/-- With no symbol to come, `DEC_E` puts out the rest (R160). -/
theorem decClose_of_decodesTo (h : DecodesTo p out [] s) : (decClose s).oq = out ∧ (decClose s).gc = 0#2 := by
  obtain ⟨_, rfl, hout⟩ := h
  rcases bits2_cases s.gc with hg | hg | hg | hg
  · rw [decClose_zero hg]
    simpa [State.decHeld, hg, decodeMsg_nil] using hout
  · rw [decClose_one hg]
    simpa [State.decHeld, hg, decodeMsg_one] using hout
  · rw [decClose_two hg]
    simpa [State.decHeld, hg, decodeMsg_two] using hout
  · rw [decClose_three hg]
    simpa [State.decHeld, hg, decodeMsg_three] using hout

/-- Settles O53: at the opening nothing is held, so that all of `t` is to be decoded, and at the close nothing is left. -/
theorem decMessageEmitsDECODE : Obligations.DecMessageEmitsDECODE := by
  unfold Obligations.DecMessageEmitsDECODE
  intro s l t hi hb hf hl
  obtain ⟨_, _, _, hg, _⟩ := betweenMessages_of_inv hi hf hb
  have hstart : DecodesTo s.cfg (s.oq ++ (decodeMsg s.cfg t).map symBeat) t (s.openMsg .dec) :=
    ⟨rfl, rfl, by simp [State.decHeld, hg]⟩
  obtain ⟨s', hrun, hend, hsf⟩ := (keptBySymbols_decodesTo _ _).readMessage_accepted (o := .dec) hl hf hb hstart
  have ⟨hop, _⟩ := hend
  obtain ⟨hoq, hgc⟩ := decClose_of_decodesTo hend
  obtain ⟨hcf, _, _, _, _, _, _, _, _, _, hcb⟩ := closingPart_fields true s'
  refine ⟨_, hrun, ?_, hcb, ?_, hcf.trans hsf⟩
  · rw [closingPart_dec hop]
    simp [hoq]
  · rw [closingPart_dec hop]
    simp [hgc]

end Sys2Proof.Machine
end

section
/-! The TRIM forms (43_trimpadding.md R183 to R187): the next state of each, and what they leave alone. -/

namespace Sys2Proof.Machine

variable {s t : State} {last keep : Bool} {d : Symbol}

/-- Under `OP` = TRIM the closing part drops the held run, and is then `END` and the end of the message (R185). -/
theorem closingPart_trim (h : s.op = .trim) : closingPart true s = (s.setPr 0).emitEnd.closeMsg := by
  simp [closingPart, closeGroup, trimClose, h]

/-- An `=` that finds the run counter full abandons its beat, whether or not that closes (R184). -/
theorem accept_run_overflow (last : Bool) (hf : s.flt = false) (h : InForce .trim s) (hp : s.pr = s.cfg.runMax) :
    accept Op.trim.code last true padChar s = .next (s.raiseFault runovfCode) :=
  accept_raised hf (.inr rfl) (opening_inForce h) (trimTake_overflow hp)

/-- Settles O31: an open TRIM message is one of the states where the overflow abandons the beat. -/
theorem trimRunOverflow : Obligations.TrimRunOverflow := by
  unfold Obligations.TrimRunOverflow
  intro s hf _ ho hp
  exact ⟨accept_run_overflow false hf (.inr ho) hp, accept_run_overflow true hf (.inr ho) hp⟩

/-- Settles O32: the closing part under the open message. -/
theorem trimCloseResult : Obligations.TrimCloseResult := by
  unfold Obligations.TrimCloseResult
  intro s u hf h
  rw [exec_eq_accept]
  refine (accept_close_inForce (o := .trim) hf h).trans ?_
  rw [closingPart_trim rfl]
  rfl

/-- Settles O30: an `=` overflows or is counted, another character replays the held run. -/
theorem trimSymbolResult : Obligations.TrimSymbolResult := by
  unfold Obligations.TrimSymbolResult
  intro s c hf h
  by_cases hc : c = 0x3D#8
  · subst hc
    by_cases hp : s.pr = 2 ^ s.cfg.runW - 1
    · rw [if_pos rfl, if_pos hp]
      exact accept_run_overflow false hf h hp
    · rw [if_pos rfl, if_neg hp]
      exact exec_symbol_inForce rfl rfl rfl hf h (trimTake_pad hp)
  · refine (exec_symbol_inForce (i := .trimS c) rfl rfl rfl hf h (trimTake_other (c := c) hc)).trans ?_
    simp [hc, State.emitSyms, State.setPr, padChar]

/-- Settles O33: a symbol taken is followed by the close in the same message, and a faulted block takes no close. -/
theorem trimSymbolThenClose : Obligations.TrimSymbolThenClose := by
  unfold Obligations.TrimSymbolThenClose
  intro s c u hf h
  cases hs : symbolPart true c { s with busy := true, op := .trim } with
  | done t =>
    obtain ⟨hflt, _⟩ := symbolPart_done hs
    obtain ⟨hsymbol, hclose, hboth⟩ := accept_symbol_then_close hf h u hs
    exact ⟨t, closingPart true t, hsymbol, hclose, hboth, fun ht => by simp [hflt, hf] at ht⟩
  | raised code =>
    have habandon : ∀ last, accept Op.trim.code last true c s = .next (s.raiseFault code) :=
      fun _ => accept_raised hf (.inr rfl) (opening_inForce h) hs
    have hrefuse : exec (.trimE u) (s.raiseFault code) = .next (s.raiseFault code) := by
      rw [exec_eq_accept]
      exact accept_faulted rfl
    exact ⟨_, _, habandon false, hrefuse, habandon true, fun _ => rfl⟩
  | stopped f =>
    obtain ⟨_, henc, _⟩ := symbolPart_stopped hs
    cases henc

/-- The symbol part of a TRIM message does not use the group buffer (R183). -/
theorem symbolPart_trim_frame (ho : s.op = .trim) (h : symbolPart keep d s = .done t) :
    t.gc = s.gc ∧ t.gb0 = s.gb0 ∧ t.gb1 = s.gb1 ∧ t.gb2 = s.gb2 := by
  cases keep with
  | false =>
    rw [symbolPart_none] at h
    cases h
    simp
  | true =>
    rw [symbolPart_trim d ho] at h
    rcases trimTake_cases d s with ⟨_, _, hs⟩ | ⟨_, _, hs⟩ | ⟨_, hs⟩ <;> rw [hs] at h <;> cases h
    · simp
    · simp

/-- The closing part of a TRIM message leaves `GC` alone (R185). -/
theorem closingPart_trim_gc (last : Bool) (ho : s.op = .trim) : (closingPart last s).gc = s.gc := by
  cases last with
  | false => rfl
  | true => simp [closingPart_trim ho]

/-- What every beat written for TRIM leaves alone where TRIM is in force: the status only if no `=` overflows. -/
theorem accept_trim_frame (hforce : InForce .trim s) (h : accept Op.trim.code last keep d s = .next t) :
    t.gc = s.gc ∧ t.gb0 = s.gb0 ∧ t.gb1 = s.gb1 ∧ t.gb2 = s.gb2 ∧
      (keep = false ∨ d ≠ padChar ∨ s.pr ≠ s.cfg.runMax → t.flt = s.flt ∧ t.fcode = s.fcode) := by
  rcases accept_cases h with ⟨_, rfl⟩ | ⟨_, _, _, rfl⟩ | ⟨_, _, _, hcode, _⟩ | ⟨_, _, s1, hopen, hpart⟩
  · simp
  · simp
  · exact absurd hcode (by decide)
  · obtain rfl : { s with busy := true, op := .trim } = s1 := Option.some.inj ((opening_inForce hforce).symm.trans hopen)
    rcases hpart with ⟨c, hs, rfl⟩ | ⟨s2, hs, rfl⟩
    · obtain ⟨hkeep, _, hd, hp, _⟩ := symbolPart_raised hs
      have hover : ¬(keep = false ∨ d ≠ padChar ∨ s.pr ≠ s.cfg.runMax) := by simpa [hkeep, hd] using hp
      exact ⟨rfl, rfl, rfl, rfl, fun hno => absurd hno hover⟩
    · obtain ⟨hflt, hfcode, _, hop, _⟩ := symbolPart_done hs
      obtain ⟨hgc, hgb0, hgb1, hgb2⟩ := symbolPart_trim_frame rfl hs
      obtain ⟨hcflt, hcfcode, _, hcgb0, hcgb1, hcgb2, _⟩ := closingPart_fields last s2
      exact ⟨(closingPart_trim_gc last hop).trans hgc, hcgb0.trans hgb0, hcgb1.trans hgb1, hcgb2.trans hgb2,
        fun _ => ⟨hcflt.trans hflt, hcfcode.trans hfcode⟩⟩

/-- Settles O48: the three forms are beats written for TRIM, of which the closing one has no symbol. -/
theorem trimFrame : Obligations.TrimFrame := by
  unfold Obligations.TrimFrame
  intro i c s t hi hforce h
  have hcode : i.opBits = Op.trim.code := by rcases hi with rfl | rfl | rfl <;> rfl
  have hdata : i.dataBits = c := by rcases hi with rfl | rfl | rfl <;> rfl
  have hclose : i = .trimE c → i.keepBit = false := by rintro rfl; rfl
  have hhost := formsLeaveHostSideAlone i s t h
  rw [exec_eq_accept, hcode, hdata] at h
  obtain ⟨hgc, hgb0, hgb1, hgb2, hstatus⟩ := accept_trim_frame hforce h
  exact ⟨hgc, hgb0, hgb1, hgb2, fun hno => hstatus (hno.imp_left hclose), hhost⟩

end Sys2Proof.Machine
end

section
/-! `TRIMPAD` as a cut of the text (43_trimpadding.md R180). -/

namespace Sys2Proof.Machine

/-- A text is its `TRIMPAD` and then a run of '=', by induction from its end: an '=' there lengthens the run, and another
character there is kept with all before it. -/
theorem exists_eq_trimMsg_append_pads (t : List Symbol) : ∃ r, t = trimMsg t ++ List.replicate r padChar := by
  induction t using List.reverseRecOn with
  | nil => exact ⟨0, rfl⟩
  | append_singleton t c ih =>
    by_cases hc : c = padChar
    · obtain ⟨r, hr⟩ := ih
      have hcut : trimMsg (t ++ [c]) = trimMsg t := by rw [hc]; exact trimMsg_pads t 1
      exact ⟨r + 1, by rw [hcut, List.replicate_succ', ← List.append_assoc, ← hr, hc]⟩
    · have hkeep : trimMsg (t ++ [c]) = t ++ [c] := trimMsg_keep t [] hc
      exact ⟨0, by rw [hkeep]; simp⟩

/-- Settles O58: the library's cut from the right ends in no '=' and is idempotent. -/
theorem trimCutsTrailingPads : Obligations.TrimCutsTrailingPads := by
  unfold Obligations.TrimCutsTrailingPads
  intro t
  refine ⟨exists_eq_trimMsg_append_pads t, fun hlast => ?_, ?_⟩
  · rw [trimMsg_eq] at hlast
    obtain ⟨hne, hpad⟩ := List.mem_getLast?_eq_getLast hlast
    exact List.rdropWhile_last_not _ _ hne (beq_iff_eq.mpr hpad.symm)
  · simp only [trimMsg_eq]
    exact List.rdropWhile_idempotent _ t

end Sys2Proof.Machine
end

section
/-! One TRIM message emits `TRIMPAD` of its symbols (43_trimpadding.md R186): what is put out and what is still to be
trimmed stay the same in sum. -/

namespace Sys2Proof.Machine

variable {s : State} {out : List OutBeat}

/-- Under TRIM, with the run held no run of the symbols `m` to come overflows, and what is put out and `TRIMPAD` of the run
held and `m` are `out` together. -/
def TrimsTo (out : List OutBeat) (m : List Symbol) (s : State) : Prop :=
  s.op = .trim ∧ runsWithin s.cfg.runMax s.pr m = true ∧
    s.oq ++ (trimMsg (List.replicate s.pr padChar ++ m)).map symBeat = out

/-- Another '=' of a text within the limit finds the counter with room (R184). -/
theorem runsWithin_pad {limit r : Nat} {m : List Symbol} :
    runsWithin limit r (padChar :: m) = true ↔ r < limit ∧ runsWithin limit (r + 1) m = true := by
  simp [runsWithin]

/-- Another character ends the run before it. -/
theorem runsWithin_other {limit r : Nat} {c : Symbol} {m : List Symbol} (h : c ≠ padChar) :
    runsWithin limit r (c :: m) = runsWithin limit 0 m := by
  simp [runsWithin, h]

/-- Every symbol taken leaves it so: an '=' joins the run held, and another character puts the run out before it (R183). -/
theorem keptBySymbols_trimsTo (out : List OutBeat) : KeptBySymbols (TrimsTo out) := by
  rintro d m s ⟨hop, hruns, hout⟩
  rw [symbolPart_trim d hop]
  by_cases hd : d = padChar
  · subst hd
    obtain ⟨hroom, hruns⟩ := runsWithin_pad.mp hruns
    refine ⟨_, trimTake_pad hroom.ne, hop, hruns, ?_⟩
    simpa [List.replicate_succ'] using hout
  · rw [runsWithin_other hd] at hruns
    refine ⟨_, trimTake_other hd, hop, hruns, ?_⟩
    simpa [trimMsg_keep _ m hd] using hout

/-- With no symbol to come, all is put out: the run held is trailing (R185). -/
theorem oq_of_trimsTo (h : TrimsTo out [] s) : s.oq = out := by
  obtain ⟨_, _, hout⟩ := h
  have hcut : trimMsg (List.replicate s.pr padChar) = [] := trimMsg_pads [] s.pr
  simpa [hcut] using hout

/-- Settles O54: at the opening no run is held, so that all of `t` is to be trimmed, and at the close nothing is left. -/
theorem trimMessageEmitsTRIMPAD : Obligations.TrimMessageEmitsTRIMPAD := by
  unfold Obligations.TrimMessageEmitsTRIMPAD
  intro s l t hi hb hf hl hruns
  obtain ⟨_, _, _, _, hp⟩ := betweenMessages_of_inv hi hf hb
  have hstart : TrimsTo (s.oq ++ (trimMsg t).map symBeat) t (s.openMsg .trim) :=
    ⟨rfl, by simpa [hp, Params.runMax] using hruns, by simp [hp]⟩
  obtain ⟨s', hrun, hend, hsf⟩ := (keptBySymbols_trimsTo _).readMessage_accepted (o := .trim) hl hf hb hstart
  have ⟨hop, _⟩ := hend
  refine ⟨_, hrun, ?_⟩
  rw [closingPart_trim hop]
  simp [oq_of_trimsTo hend, hsf]

end Sys2Proof.Machine
end

section
/-! Faults (60_exceptions.md R201 to R204): how one is entered, how long it stays, and what a faulted block still does. -/

namespace Sys2Proof.Machine

variable {s s1 t : State} {code : BitVec 2} {last keep : Bool} {d : Symbol}

/-- A symbol part that completes leads to no fault, whether or not the beat then closes. -/
theorem closingPart_symbolPart_flt (hs : symbolPart keep d s = .done t) : (closingPart last t).flt = s.flt := by
  obtain ⟨hcflt, _⟩ := closingPart_fields last t
  obtain ⟨hflt, _⟩ := symbolPart_done hs
  exact hcflt.trans hflt

/-- The opening part writes neither the status nor the run counter, and what it leaves in `OP` is what was there under an
open message, and otherwise the operation of the beat (R112). -/
theorem opening_fields (ho : opening code s = some s1) :
    s1.flt = s.flt ∧ s1.pr = s.pr ∧ s1.cfg = s.cfg ∧ (s.busy = true → s1.op = s.op) ∧
      (s.busy = false → code = s1.op.code) := by
  rcases opening_eq_some ho with ⟨hb, rfl⟩ | ⟨hb, o, rfl, rfl⟩
  · simp [hb]
  · simp [hb]

/-- ACCEPT enters a fault only on the state before the beat (R202), for one of two causes (R201): the reserved code where it
would open a message, or an `=` for TRIM that finds the run counter full. -/
theorem accept_fault_entry (hf : s.flt = false) (h : accept code last keep d s = .next t) (ht : t.flt = true) :
    (t = s.raiseFault rsvopCode ∧ s.busy = false ∧ code = 3#2 ∧ (last = true ∨ keep = true)) ∨
    (t = s.raiseFault runovfCode ∧ keep = true ∧ d = padChar ∧ s.pr = s.cfg.runMax ∧
      (s.busy = true → s.op = .trim) ∧ (s.busy = false → code = Op.trim.code)) := by
  rcases accept_cases h with ⟨_, rfl⟩ | ⟨_, _, _, rfl⟩ | ⟨_, hlk, hb, hcode, rfl⟩ | ⟨_, _, s1, ho, hpart⟩
  · simp [hf] at ht
  · simp [hf] at ht
  · exact .inl ⟨rfl, hb, hcode, hlk⟩
  · obtain ⟨hflt, hpr, hcfg, hopen, hidle⟩ := opening_fields ho
    rcases hpart with ⟨c, hs, rfl⟩ | ⟨s2, hs, rfl⟩
    · obtain ⟨hkeep, hop, hd, hfull, rfl⟩ := symbolPart_raised hs
      rw [hpr, hcfg] at hfull
      exact .inr ⟨rfl, hkeep, hd, hfull, fun hb => (hopen hb).symm.trans hop, fun hb => (hidle hb).trans (by rw [hop])⟩
    · simp [closingPart_symbolPart_flt hs, hflt, hf] at ht

/-- Settles O35: fault entry writes `FLT` and `FCODE`, and its two causes are those of ACCEPT with the form's fields. -/
theorem faultCausesAndEntry : Obligations.FaultCausesAndEntry := by
  unfold Obligations.FaultCausesAndEntry
  intro i s t hf h ht
  rw [exec_eq_accept] at h
  rcases accept_fault_entry hf h ht with ⟨rfl, hb, hcode, hlk⟩ | ⟨rfl, hkeep, hd, hfull, hopen, hidle⟩
  · exact ⟨rfl, .inl ⟨rfl, hb, hcode, hlk⟩⟩
  · exact ⟨rfl, .inr ⟨rfl, hkeep, hd, hfull, hopen, hidle⟩⟩

/-- DELIVER leaves the status alone. -/
theorem State.deliver_flt (s : State) : s.deliver.flt = s.flt := by
  cases h : s.oq <;> simp [State.deliver, h]

/-- DELIVER leaves the code of the fault alone. -/
theorem State.deliver_fcode (s : State) : s.deliver.fcode = s.fcode := by
  cases h : s.oq <;> simp [State.deliver, h]

/-- Settles O36: of the moves `step_cases` allows, an accepted beat needs an unfaulted block, and only RESET is left to
write the status. -/
theorem faultStaysUntilReset : Obligations.FaultStaysUntilReset := by
  unfold Obligations.FaultStaysUntilReset
  intro s t hf h
  rcases step_cases h with ⟨hm, rfl⟩ | ⟨ms, hm, rfl⟩ | ⟨ms, hm, rfl⟩ | ⟨ms, hm, rfl⟩ | ⟨_, _, _, _, _, hunfaulted, _⟩
  · simp [hm, hf]
  · simp [hm]
  · obtain ⟨_, _, hinq, _⟩ := deliver_channels { s with moves := ms }
    exact ⟨fun _ => ⟨(State.deliver_flt _).trans hf, State.deliver_fcode _, State.deliver_busy _, hinq⟩,
      fun hreset => by simp [hm] at hreset⟩
  · simp [hm, hf]
  · simp [hf] at hunfaulted

/-- A step in which a faulted block is offered a beat, or none, changes nothing but the schedule (R203). -/
theorem step_offer_faulted {ms : List Move} (hf : s.flt = true) (hm : s.moves = .accept :: ms) :
    step s = .next { s with moves := ms } := by
  rw [step_cons hm, runMove, offer_waits (inReady_faulted (s := { s with moves := ms }) hf)]

/-- Settles O34: a faulted block shows `in_ready` = 0, and to deliver it needs no more than a beat in `OQ`. -/
theorem faultedBlockOnlyDrains : Obligations.FaultedBlockOnlyDrains := by
  unfold Obligations.FaultedBlockOnlyDrains
  intro s hf
  refine ⟨inReady_faulted hf, hf, rfl, fun i => ?_, fun ms hm => step_offer_faulted hf hm, fun ms w rest hm hq => ?_⟩
  · rw [exec_eq_accept]
    exact accept_faulted hf
  · obtain ⟨hdeliver, _⟩ := deliverMovesTheHead s ms hm
    exact hdeliver w rest hq

end Sys2Proof.Machine
end

section
/-! RESET, and the queue of the guarded model (70_reset_and_hazards.md R230, R233, R244). -/

namespace Sys2Proof.Machine

/-- A RESET step is RESET in the state whose schedule is one move shorter, whatever the block was doing (R230). -/
theorem step_reset {s : State} {ms : List Move} (hm : s.moves = .reset :: ms) :
    step s = .next { s with moves := ms }.resetBlock := by
  rw [step_cons hm, runMove]

/-- Settles O15: the step is RESET, whose state holds the reset values and what the host held. -/
theorem resetStepClears : Obligations.ResetStepClears := by
  unfold Obligations.ResetStepClears
  intro s ms hm
  exact ⟨_, step_reset hm, by simp⟩

/-- A delivery never lengthens `OQ` (20_memory.md R70). -/
theorem deliver_oq_length_le (s : State) : s.deliver.oq.length ≤ s.oq.length := by
  obtain ⟨hoq, _⟩ := deliver_channels s
  simp [hoq]

/-- Settles O60: of the moves `step_cases` allows, only an accepted beat adds to `OQ`, and it was accepted because the queue
it leaves has room. -/
theorem guardedQueueStaysWithinDepth : Obligations.GuardedQueueStaysWithinDepth := by
  unfold Obligations.GuardedQueueStaysWithinDepth
  intro s t n hcfg hlen h
  rcases step_cases h with ⟨_, rfl⟩ | ⟨ms, _, rfl⟩ | ⟨ms, _, rfl⟩ | ⟨ms, _, rfl⟩ | ⟨ms, w, rest, _, _, _, hx, hroom⟩
  · exact hlen
  · simp
  · exact (deliver_oq_length_le { s with moves := ms }).trans hlen
  · exact hlen
  · obtain ⟨_, _, _, htcfg⟩ := formsLeaveHostSideAlone _ _ _ hx
    have hdepth : t.cfg.oqDepth = some n := by rw [htcfg]; exact hcfg
    rw [hasRoom_guarded hdepth] at hroom
    exact of_decide_eq_true hroom

end Sys2Proof.Machine
end
